-- ==== Sys2Proof/Word.lean ====
section
/-! DEFINITION. The words the block handles: 32-bit registers and command words, bytes, and 21-bit
character elements (spec/00_scope.md R7, spec/20_memory.md R54). -/

namespace Sys2Proof

/-- A register or a command word: 32 bits (R20, R74). -/
abbrev Word := BitVec 32

/-- An 8-bit unsigned byte (R7). -/
abbrev Byte := BitVec 8

/-- A character element as the payload port and the `ARG` field carry it: 21 bits (R7, R54).
Not every 21-bit value is a Unicode scalar value; `isScalar` says which are. -/
abbrev Char21 := BitVec 21

end Sys2Proof
end

