-- ==== Sys2Proof/Machine/Scalar.lean ====
section
/-! DEFINITION. Which 21-bit values are Unicode scalar values (spec/00_scope.md R7). -/

namespace Sys2Proof

/-- A Unicode scalar value: `0x0000`-`0x10FFFF` without the surrogates `0xD800`-`0xDFFF` (R7). -/
def isScalar (c : Char21) : Bool :=
  decide (c.toNat ≤ 0x10FFFF) && !(decide (0xD800 ≤ c.toNat) && decide (c.toNat ≤ 0xDFFF))

end Sys2Proof
end

