-- ==== Sys2Proof/Syntax.lean ====
section
/-! DEFINITION. The command set `GSM7C-1`: one constructor per row of spec/opcode_table.json
(spec/30_encoding.md R76). An illegal command word is no instruction; the decoder names its ground. -/

namespace Sys2Proof

/-- The eleven commands of R76, with the operand that `ARG` carries (R75). -/
inductive Instr where
  /-- `ENC`, encode with the default configuration (R148). -/
  | enc
  /-- `ENC.C`, encode with the configuration registers (R149). -/
  | encC
  /-- `DEC`, decode with the default configuration (R173). -/
  | dec
  /-- `DEC.C`, decode with the configuration registers (R174). -/
  | decC
  /-- `ELEN`, the encoded length (R202). -/
  | elen
  /-- `COMPAT`, the compatibility check (R203). -/
  | compat
  /-- `LKC c`, look up the Code of a character (R109). -/
  | lkc (c : Char21)
  /-- `LKB b`, look up the base-table character of a byte (R110). -/
  | lkb (b : Byte)
  /-- `LKE s`, look up the extension-table character of a suffix byte (R111). -/
  | lke (s : Byte)
  /-- `CFGD`, load the default configuration preset (R224). -/
  | cfgd
  /-- `CFGS`, load the `strict()` preset (R225). -/
  | cfgs
  deriving DecidableEq, Repr

end Sys2Proof
end

