-- ==== Sys2Proof/WellFormed.lean ====
section
/-! DEFINITION. Which terms of `Instr` the command map admits (spec/30_encoding.md R75, R76). The
operand types already bound `LKB` and `LKE` to a byte; the one remaining constraint is that the
operand of `LKC` is a Unicode scalar value. -/

namespace Sys2Proof

/-- The constraint R76 puts on a row beyond the operand's width. -/
def Instr.wellFormed : Instr → Bool
  | .lkc c => isScalar c
  | .enc => true
  | .encC => true
  | .dec => true
  | .decC => true
  | .elen => true
  | .compat => true
  | .lkb _ => true
  | .lke _ => true
  | .cfgd => true
  | .cfgs => true

end Sys2Proof
end

