-- ==== Sys2Proof/Decode.lean ====
section
/-! DEFINITION. The decoder of command words, total on every 32-bit word (spec/30_encoding.md R74-R80),
the encoder written from the same template, the command map as rows of mask and match, and the
host's entry `decodeTableWord`. -/

namespace Sys2Proof

/-- Why a command word is illegal: the items of R78. The verdict (R226) is the same for all. -/
inductive IllegalGround where
  /-- `w[7:5] != 0`. -/
  | reservedLow
  /-- `w[31:29] != 0`. -/
  | reservedHigh
  /-- `OP` is 0x0 or in 0xA-0xF. -/
  | operation
  /-- `UC = 1` with `OP` not in {0x1, 0x2}. -/
  | useConfig
  /-- `ARG != 0` with `OP` not in {0x5, 0x6, 0x7}. -/
  | argument
  /-- `OP` in {0x6, 0x7} with `ARG[20:8] != 0`. -/
  | argumentHigh
  /-- `OP = 0x5` with `ARG` not a Unicode scalar value. -/
  | notScalar
  deriving DecidableEq, Repr

/-- The decoder's answer: "every 32-bit word is either one row of R76 or illegal" (R78). -/
inductive Decoded where
  | legal (i : Instr)
  | illegal (g : IllegalGround)
  deriving DecidableEq, Repr

/-- `OP = w[3:0]` (R74). -/
def opOf (w : Word) : BitVec 4 := w.extractLsb' 0 4

/-- `UC = w[4]` (R74). -/
def ucOf (w : Word) : Bool := w.getLsbD 4

/-- `ARG = w[28:8]`, zero-extended, no scaling, no sign (R74, R75). -/
def argOf (w : Word) : BitVec 21 := w.extractLsb' 8 21

/-- A row that requires `ARG = 0` (R76). -/
def decodeNoArg (arg : BitVec 21) (i : Instr) : Decoded :=
  if arg = 0#21 then .legal i else .illegal .argument

/-- A row that requires `UC = 0` (R77). -/
def decodeNoConfig (uc : Bool) (d : Decoded) : Decoded :=
  if uc then .illegal .useConfig else d

/-- A row whose operand is the byte `ARG[7:0]`, with `ARG[20:8] = 0` (R75). -/
def decodeByteArg (arg : BitVec 21) (i : Byte → Instr) : Decoded :=
  if arg.extractLsb' 8 13 = 0#13 then .legal (i (arg.extractLsb' 0 8)) else .illegal .argumentHigh

/-- The row of `LKC`: its operand is a Unicode scalar value (R75, R76). -/
def decodeCharArg (arg : BitVec 21) : Decoded :=
  if isScalar arg then .legal (.lkc arg) else .illegal .notScalar

/-- The rows of R76, selected by `OP`. -/
def decodeFields (op : Nat) (uc : Bool) (arg : BitVec 21) : Decoded :=
  match op with
  | 0x1 => decodeNoArg arg (if uc then .encC else .enc)
  | 0x2 => decodeNoArg arg (if uc then .decC else .dec)
  | 0x3 => decodeNoConfig uc (decodeNoArg arg .elen)
  | 0x4 => decodeNoConfig uc (decodeNoArg arg .compat)
  | 0x5 => decodeNoConfig uc (decodeCharArg arg)
  | 0x6 => decodeNoConfig uc (decodeByteArg arg .lkb)
  | 0x7 => decodeNoConfig uc (decodeByteArg arg .lke)
  | 0x8 => decodeNoConfig uc (decodeNoArg arg .cfgd)
  | 0x9 => decodeNoConfig uc (decodeNoArg arg .cfgs)
  | _ => .illegal .operation

/-- Decoding a command word (R74-R78). Where a word is illegal on several grounds the first in this
order is named; the verdict does not depend on it (assumption log 13). -/
def decode (w : Word) : Decoded :=
  if w.extractLsb' 5 3 ≠ 0#3 then .illegal .reservedLow
  else if w.extractLsb' 29 3 ≠ 0#3 then .illegal .reservedHigh
  else decodeFields (opOf w).toNat (ucOf w) (argOf w)

/-- The template `000A_AAAA_AAAA_AAAA_AAAA_AAAA_000U_OOOO`, that is `{0b000, ARG, 0b000, UC, OP}`
(R74, R82). -/
def commandWord (op : BitVec 4) (uc : Bool) (arg : BitVec 21) : Word :=
  0#3 ++ arg ++ 0#3 ++ BitVec.ofBool uc ++ op

/-- The command word of an instruction (R75, R76). -/
def encode : Instr → Word
  | .enc => commandWord 0x1#4 false 0#21
  | .encC => commandWord 0x1#4 true 0#21
  | .dec => commandWord 0x2#4 false 0#21
  | .decC => commandWord 0x2#4 true 0#21
  | .elen => commandWord 0x3#4 false 0#21
  | .compat => commandWord 0x4#4 false 0#21
  | .lkc c => commandWord 0x5#4 false c
  | .lkb b => commandWord 0x6#4 false (b.setWidth 21)
  | .lke s => commandWord 0x7#4 false (s.setWidth 21)
  | .cfgd => commandWord 0x8#4 false 0#21
  | .cfgs => commandWord 0x9#4 false 0#21

/-- One row of the command map R76: `mask` and `match` over the full 32-bit word. -/
structure Row where
  mask : Word
  pattern : Word
  /-- Whether the row also asks that `ARG` be a Unicode scalar value (`LKC`). -/
  scalarArg : Bool
  deriving DecidableEq, Repr

/-- The command map of R76, row by row in the table's order. -/
def commandMap : List Row :=
  [ ⟨0xFFFFFFFF#32, 0x00000001#32, false⟩  -- ENC
  , ⟨0xFFFFFFFF#32, 0x00000011#32, false⟩  -- ENC.C
  , ⟨0xFFFFFFFF#32, 0x00000002#32, false⟩  -- DEC
  , ⟨0xFFFFFFFF#32, 0x00000012#32, false⟩  -- DEC.C
  , ⟨0xFFFFFFFF#32, 0x00000003#32, false⟩  -- ELEN
  , ⟨0xFFFFFFFF#32, 0x00000004#32, false⟩  -- COMPAT
  , ⟨0xE00000FF#32, 0x00000005#32, true⟩   -- LKC
  , ⟨0xFFFF00FF#32, 0x00000006#32, false⟩  -- LKB
  , ⟨0xFFFF00FF#32, 0x00000007#32, false⟩  -- LKE
  , ⟨0xFFFFFFFF#32, 0x00000008#32, false⟩  -- CFGD
  , ⟨0xFFFFFFFF#32, 0x00000009#32, false⟩ ] -- CFGS

/-- A word satisfies a row: it matches under the mask and meets the row's other constraint (R76). -/
def Row.admits (r : Row) (w : Word) : Bool :=
  decide (w &&& r.mask = r.pattern) && (!r.scalarArg || isScalar (argOf w))

/-- The row of an instruction in `commandMap`. -/
def rowIndex : Instr → Nat
  | .enc => 0
  | .encC => 1
  | .dec => 2
  | .decC => 3
  | .elen => 4
  | .compat => 5
  | .lkc _ => 6
  | .lkb _ => 7
  | .lke _ => 8
  | .cfgd => 9
  | .cfgs => 10

/-- The command word whose low `nbits` bits are those of `w`, the bits above being zero: a command
word is transferred whole, so the table's numbering is the word's own (R9, R74). -/
def tableWord (nbits w : Nat) : Word := BitVec.ofNat 32 (w % 2 ^ nbits)

/-- What the decoder reads from an instruction whose bits are `w` in spec/opcode_table.json's
numbering. -/
def decodeTableWord (nbits w : Nat) : Option Instr :=
  match decode (tableWord nbits w) with
  | .legal i => some i
  | .illegal _ => none

end Sys2Proof
end

