-- ==== Sys2Proof/Config.lean ====
section
/-! DEFINITION. The parameters of the block (spec/00_scope.md R6), each one an argument of the model:
`Params` is the record of those a codec function takes, `BlockParams` the record of all of them, which a
state carries. The values this hardware fixes are in Machine/Hardware.lean. -/

namespace Sys2Proof

/-- How the validation pass classifies (R6 `VALIDATE_MODE`, R168, R169). -/
inductive ValidateMode where
  /-- The pass follows the command's own `cfg.strict` (R168). -/
  | followConfig
  /-- The pass is always strict (the alternative reading of R169). -/
  | strictAlways
  deriving DecidableEq, Repr

/-- The scalar parameters of R6 that the codec functions read. -/
structure Params where
  /-- `BASE_SIZE`, the number of base-table slots: the codes are those below it (assumption log 22). -/
  baseSize : Nat
  /-- `ESC`, the escape-prefix byte. -/
  esc : Byte
  /-- `FALLBACK`, the terminal fallback byte of non-strict encode. -/
  fallback : Byte
  /-- `DEFAULT_REPL`, the default `replacement_char`. -/
  defaultRepl : Char21
  /-- `VALIDATE_MODE`. -/
  validateMode : ValidateMode
  /-- `VAL_HIGH_STRICT`: whether a strict validation pass rejects bytes of 0x80 and above. -/
  valHighStrict : Bool
  deriving DecidableEq, Repr

/-- All the parameters of R6. -/
structure BlockParams where
  /-- Those the codec functions read. -/
  codec : Params
  /-- `LEN_W`, the width of `MAXLEN` and `RESULT` in bits (assumption log 22). -/
  lenW : Nat
  /-- `BASE_TABLE`, the optional characters of the base table. -/
  baseTable : List (Option Char21)
  /-- `CEDILLA_09`, the character at base slot `0x09`. -/
  cedilla09 : Char21
  /-- `EXT_TABLE`, the suffix-to-character map, suffixes ascending. -/
  extTable : List (Byte × Char21)
  /-- `IN_CAP`, the largest payload length a command accepts (assumption log 5). -/
  inCap : Nat
  deriving DecidableEq, Repr

/-- A natural number as the `LEN_W`-bit field of a 32-bit register holds it (R24, R27; assumption
log 22). -/
def BlockParams.lenWord (P : BlockParams) (n : Nat) : Word := BitVec.ofNat 32 (n % 2 ^ P.lenW)

namespace Config

/-- The command set's identity string (R2). -/
def identity : String := "GSM7C-1/gsm7-alt-v7"

/-- The largest `IN_CAP` that R6 allows: "a natural number with `2*IN_CAP <= 2^LEN_W - 1`". `IN_CAP`
itself is OPEN: a field of `BlockParams`, which a state carries (assumption log 5). -/
def inCapMax : Nat := 0x7FFFFFFF

end Config

end Sys2Proof
end

