-- ==== Sys2Proof/Machine/Tables.lean ====
section
/-! DEFINITION. The three read-only tables, the construction of the inverse index and the table-read
primitives (spec/40_tables.md R100-R107, spec/20_memory.md R64), for any table contents. -/

namespace Sys2Proof.Machine

/-- The tagged `Code` value (R13, R70). -/
inductive Code where
  /-- The one byte `b`. -/
  | single (b : Byte)
  /-- The two bytes `ESC, s`. -/
  | escape (s : Byte)
  deriving DecidableEq, Repr

/-- The inverse index as data: each mapped character with its Code. -/
abbrev InverseIndex := List (Char21 × Code)

/-- The read-only tables of R31. -/
structure Tables where
  /-- `BASE`: slot `b` holds `none` or `some c` (R100). -/
  base : List (Option Char21)
  /-- `EXT`: the present suffixes with their characters, suffixes ascending (R103). -/
  ext : List (Byte × Char21)
  /-- `INV`: the inverse index (R105). -/
  inv : InverseIndex
  deriving DecidableEq, Repr

/-- `BASE[b]`: defined for the codes of the table, and no rule reads it elsewhere (R64, R100). -/
def Tables.baseAt (T : Tables) (b : Byte) : Option Char21 := (T.base[b.toNat]?).getD none

/-- `EXT[s]`, for every byte `s` (R64, R103). -/
def Tables.extAt (T : Tables) (s : Byte) : Option Char21 := T.ext.lookup s

/-- `INV[c]` (R64, R105). -/
def Tables.invAt (T : Tables) (c : Char21) : Option Code := T.inv.lookup c

/-- `if INV[c] = none: INV[c] <- k` (R105). -/
def insertIfAbsent (m : InverseIndex) (c : Char21) (k : Code) : InverseIndex :=
  match m.lookup c with
  | some _ => m
  | none => (c, k) :: m

/-- The first loop of R105, over the slots from code `b` on. -/
def addBase (b : Nat) : List (Option Char21) → InverseIndex → InverseIndex
  | [], m => m
  | none :: rest, m => addBase (b + 1) rest m
  | some c :: rest, m => addBase (b + 1) rest (insertIfAbsent m c (.single (BitVec.ofNat 8 b)))

/-- The second loop of R105, over the extension entries in ascending suffix order. -/
def addExt : List (Byte × Char21) → InverseIndex → InverseIndex
  | [], m => m
  | (s, c) :: rest, m => addExt rest (insertIfAbsent m c (.escape s))

/-- The inverse index of a base and an extension table: the base table first (R105, R106). -/
def buildInv (base : List (Option Char21)) (ext : List (Byte × Char21)) : InverseIndex :=
  addExt ext (addBase 0 base [])

/-- The base table of a block: the `BASE_SIZE` slots of `BASE_TABLE`, slot `0x09` holding `CEDILLA_09`
(R100, R102), slot `0x1B` empty "for every value of the parameters" (R101). -/
def baseOf (P : BlockParams) : List (Option Char21) :=
  ((P.baseTable.take P.codec.baseSize).set 0x09 (some P.cedilla09)).set 0x1B none

/-- The tables of a block: their contents are the parameters `BASE_TABLE`, `EXT_TABLE` and `CEDILLA_09`,
and `INV` is derived from them (R31, R105). -/
def Tables.ofParameters (P : BlockParams) : Tables :=
  { base := baseOf P, ext := P.extTable, inv := buildInv (baseOf P) P.extTable }

/-- The bytes of a Code (R13, R70). -/
def Code.bytes (P : Params) : Code → List Byte
  | .single b => [b]
  | .escape s => [P.esc, s]

end Sys2Proof.Machine
end

