-- ==== Sys2Proof/Machine/Hardware.lean ====
section
/-! DEFINITION. The parameter values of this hardware (spec/00_scope.md R6) and the contents of its
tables (spec/40_tables.md R102, R103). -/

namespace Sys2Proof.Machine

/-- The values R6 fixes for this hardware's codec functions (assumption log 9 for `defaultRepl`, 10 for the two
validation parameters). -/
def hw : Params :=
  { baseSize := 128
    esc := 0x1B#8
    fallback := 0x20#8
    defaultRepl := 0xFFFD#21
    validateMode := .followConfig
    valHighStrict := false }

/-- `CEDILLA_09`, the character at base slot 0x09 (R6; assumption log 7). -/
def cedilla09 : Char21 := 0xC7#21

/-- Present slots, from their code points. -/
def slots (l : List Nat) : List (Option Char21) := l.map fun n => some (BitVec.ofNat 21 n)

/-- The default `BASE_TABLE` (R102; assumption log 6). -/
def baseTable : List (Option Char21) :=
  slots [0x0040, 0x00A3, 0x0024, 0x00A5, 0x00E8, 0x00E9, 0x00F9, 0x00EC, 0x00F2]
  ++ [some cedilla09]
  ++ slots [0x000A, 0x00D8, 0x00F8, 0x000D, 0x00C5, 0x00E5]
  ++ slots [0x0394, 0x005F, 0x03A6, 0x0393, 0x039B, 0x03A9, 0x03A0, 0x03A8,
            0x03A3, 0x0398, 0x039E]
  ++ [none]
  ++ slots [0x00C6, 0x00E6, 0x00DF, 0x00C9]
  ++ slots [0x0020, 0x0021, 0x0022, 0x0023, 0x00A4, 0x0025, 0x0026, 0x0027,
            0x0028, 0x0029, 0x002A, 0x002B, 0x002C, 0x002D, 0x002E, 0x002F]
  ++ slots [0x0030, 0x0031, 0x0032, 0x0033, 0x0034, 0x0035, 0x0036, 0x0037,
            0x0038, 0x0039, 0x003A, 0x003B, 0x003C, 0x003D, 0x003E, 0x003F]
  ++ slots [0x00A1, 0x0041, 0x0042, 0x0043, 0x0044, 0x0045, 0x0046, 0x0047,
            0x0048, 0x0049, 0x004A, 0x004B, 0x004C, 0x004D, 0x004E, 0x004F]
  ++ slots [0x0050, 0x0051, 0x0052, 0x0053, 0x0054, 0x0055, 0x0056, 0x0057,
            0x0058, 0x0059, 0x005A, 0x00C4, 0x00D6, 0x00D1, 0x00DC, 0x00A7]
  ++ slots [0x00BF, 0x0061, 0x0062, 0x0063, 0x0064, 0x0065, 0x0066, 0x0067,
            0x0068, 0x0069, 0x006A, 0x006B, 0x006C, 0x006D, 0x006E, 0x006F]
  ++ slots [0x0070, 0x0071, 0x0072, 0x0073, 0x0074, 0x0075, 0x0076, 0x0077,
            0x0078, 0x0079, 0x007A, 0x00E4, 0x00F6, 0x00F1, 0x00FC, 0x00E0]

/-- The default `EXT_TABLE`: ten entries, suffixes ascending (R103; assumption log 8). -/
def extTable : List (Byte × Char21) :=
  [ (0x0A#8, 0x000C#21), (0x14#8, 0x005E#21), (0x28#8, 0x007B#21), (0x29#8, 0x007D#21)
  , (0x2F#8, 0x005C#21), (0x3C#8, 0x005B#21), (0x3D#8, 0x007E#21), (0x3E#8, 0x005D#21)
  , (0x40#8, 0x007C#21), (0x65#8, 0x20AC#21) ]

/-- The parameters of this hardware (R6); `IN_CAP`, which R6 leaves open, at the largest value it allows
(assumption log 5). -/
def hwParams : BlockParams :=
  { codec := hw
    lenW := 32
    baseTable := baseTable
    cedilla09 := cedilla09
    extTable := extTable
    inCap := Config.inCapMax }

/-- The tables of this hardware, valid from reset (R31, R108, R271). -/
def hwTables : Tables := Tables.ofParameters hwParams

end Sys2Proof.Machine
end

