-- ==== Sys2Proof/Machine/State.lean ====
section
/-! DEFINITION. The state of the block (spec/10_state.md R20-R34), the host port beside it (the
model's own fields, assumption logs 1 to 4), the reasons a step can stop, and the state after reset. -/

namespace Sys2Proof.Machine

/-- A payload: the empty sequence `[]`, or a non-empty byte sequence, or a non-empty string (R10, R50,
R81). Spelled with a head and a tail so that `[]` is one value and equal sequences are equal data
(assumption log 11). -/
inductive Payload where
  | empty
  | byteSeq (head : Byte) (tail : List Byte)
  | charSeq (head : Char21) (tail : List Char21)
  deriving DecidableEq, Repr

/-- A host transaction with what it carries (R220). A register index is a number; those of 8 and
above are refused (R57). -/
inductive Transaction where
  | reset
  | writeReg (i : Nat) (v : Word)
  | readReg (i : Nat)
  | command (w : Word) (input : Payload)
  deriving DecidableEq, Repr

/-- What a transaction returns to the host (R220, R222, R223). -/
inductive Response where
  /-- `RESET` and `WRITE_REG` return nothing. -/
  | nothing
  /-- `READ_REG` returns a 32-bit value. -/
  | value (v : Word)
  /-- `COMMAND` returns `(STATUS, ERRINFO, RESULT, OUT)`. -/
  | command (status errinfo result : Word) (out : Payload)
  deriving DecidableEq, Repr

/-- Why a step stops with a fault. There is no constructor: "the model has no pending work, no hang and
no stuck state; the only way a transaction fails to take a step is a refusal" (R282). -/
inductive Fault where
  deriving DecidableEq, Repr

/-- Why a transaction is refused: the grounds F1 to F6 of R251, in which "the block's behaviour is not
defined". Every one is safe: no claim about a run that contains such a transaction can be proved. -/
inductive Refusal where
  /-- An instruction with no meaning yet: raised by a refused arm of `exec` only; safe. No arm raises it. -/
  | notModelled (mnemonic : String)
  /-- F1, raised by every `COMMAND` whose payload has more than `IN_CAP` elements; safe. -/
  | payloadTooLong
  /-- F2, raised by `ENC`, `ENC.C`, `ELEN`, `COMPAT` on an element that is no scalar value; safe. -/
  | payloadNotScalar
  /-- F3, raised by `LKC`, `LKB`, `LKE`, `CFGD`, `CFGS` on a non-empty payload; safe. -/
  | payloadNotEmpty
  /-- F4, raised by `ENC`, `ENC.C`, `ELEN`, `COMPAT` on bytes and by `DEC`, `DEC.C` on characters; safe. -/
  | payloadType
  /-- F5, raised by `WRITE_REG(1, v)` with `v[20:0]` no scalar value; safe. -/
  | replNotScalar
  /-- F6, raised by `READ_REG(i)` and `WRITE_REG(i, v)` with `i >= 8`; safe. -/
  | registerIndex
  deriving DecidableEq, Repr

/-- The host port: what stands outside the block. MODEL's own fields. -/
structure Port where
  /-- The host's transactions still to be issued, first one first (assumption log 1). -/
  pending : List Transaction
  /-- `IN` while a `COMMAND` is performed, `[]` otherwise (R20; assumption log 2). -/
  input : Payload
  /-- What the last transaction returned (assumption log 3). -/
  response : Response
  /-- The refusal mark of R251 (assumption log 4). -/
  refusal : Option Refusal
  deriving DecidableEq, Repr

/-- The state: the components R20 lists, the parameters of the block, and the host port. `x[7]` has no
storage (R29). -/
structure State where
  /-- `CFG = x[0]` (R22). -/
  cfg : Word
  /-- `REPL = x[1]` (R23). -/
  repl : Word
  /-- `MAXLEN = x[2]` (R24). -/
  maxlen : Word
  /-- `STATUS = x[3]` (R25). -/
  status : Word
  /-- `ERRINFO = x[4]` (R26). -/
  errinfo : Word
  /-- `RESULT = x[5]` (R27). -/
  result : Word
  /-- `FSM = x[6]` (R28). -/
  fsm : Word
  /-- `OUT` (R30). -/
  out : Payload
  /-- `BASE`, `EXT` and `INV` (R31). -/
  tables : Tables
  /-- The parameters of R6 of the block this state is a state of. No step changes them (assumption
  log 22). -/
  params : BlockParams
  /-- The host port (the model's own). -/
  port : Port
  deriving DecidableEq, Repr

/-- The host port after reset: nothing to issue, no payload, nothing returned, no mark. -/
def Port.idle : Port := { pending := [], input := .empty, response := .nothing, refusal := none }

/-- The state after `RESET` of a block with parameters `P` (R34, R270), beside a given host port. -/
def State.resetOf (P : BlockParams) (port : Port) : State :=
  { cfg := 0x00000000#32
    repl := P.codec.defaultRepl.setWidth 32
    maxlen := 0x00000000#32
    status := 0x00000000#32
    errinfo := 0x00000000#32
    result := 0x00000000#32
    fsm := 0x00000000#32
    out := .empty
    tables := Tables.ofParameters P
    params := P
    port := port }

/-- The state after `RESET` of this hardware. R6 leaves `IN_CAP` open; the largest it allows stands here,
and no statement rests on it (assumption log 5). -/
def State.reset : State := State.resetOf hwParams Port.idle

end Sys2Proof.Machine
end

