-- ==== Sys2Proof/Machine/Flags.lean ====
section
/-! DEFINITION. The error values (spec/60_exceptions.md R240-R243), the `STATUS` word they and the other
outcomes leave (spec/10_state.md R25), and the register fields. -/

namespace Sys2Proof.Machine

/-- The reasons of `MalformedData` (R243). -/
inductive Reason where
  | lengthExceeded
  | escAtEnd
  deriving DecidableEq, Repr

/-- The closed set of four error kinds with their payloads (R240, R241). -/
inductive CodecError where
  | unsupportedCharacter (character : Char21) (codePoint : Nat)
  | invalidEscapeSequence (suffix : Byte)
  | invalidByte (byte : Byte)
  | malformedData (reason : Reason)
  deriving DecidableEq, Repr

/-- A codec function returns `ok(v)` or `err(e)` (R12). -/
inductive Result (α : Type) where
  | ok (v : α)
  | err (e : CodecError)
  deriving DecidableEq, Repr

/-- `REASON` codes (R243). -/
def Reason.code : Reason → BitVec 2
  | .lengthExceeded => 1#2
  | .escAtEnd => 2#2

/-- The source's text for a reason: it gives one template, and none for the length case (R242). -/
def Reason.text : Reason → Option String
  | .lengthExceeded => none
  | .escAtEnd => some "escape byte at end of input"

/-- `KIND` codes (R240). -/
def CodecError.kind : CodecError → BitVec 3
  | .unsupportedCharacter _ _ => 1#3
  | .invalidEscapeSequence _ => 2#3
  | .invalidByte _ => 3#3
  | .malformedData _ => 4#3

/-- The `REASON` field an error leaves (R244). -/
def CodecError.reason : CodecError → BitVec 2
  | .unsupportedCharacter _ _ => 0#2
  | .invalidEscapeSequence _ => 0#2
  | .invalidByte _ => 0#2
  | .malformedData r => r.code

/-- The `ERRINFO` word an error leaves (R26, R244). -/
def CodecError.info : CodecError → Word
  | .unsupportedCharacter _ cp => (BitVec.ofNat 21 cp).setWidth 32
  | .invalidEscapeSequence s => s.setWidth 32
  | .invalidByte b => b.setWidth 32
  | .malformedData _ => 0#32

/-- `STATUS = {REASON[7:6], ILLEGAL[5], KIND[4:2], ERR[1], DONE[0]}`, bits 31:8 zero (R25). -/
def statusWord (done err : Bool) (kind : BitVec 3) (illegal : Bool) (reason : BitVec 2) : Word :=
  0#24 ++ reason ++ BitVec.ofBool illegal ++ kind ++ BitVec.ofBool err ++ BitVec.ofBool done

/-- `STATUS` after a command that returned no error: 0x01. -/
def statusOk : Word := statusWord true false 0#3 false 0#2

/-- `STATUS` after a command that returned the error `e` (R244). -/
def statusErr (e : CodecError) : Word := statusWord true true e.kind false e.reason

/-- `STATUS` after an illegal command word (R226): 0x21. -/
def statusIllegal : Word := statusWord true false 0#3 true 0#2

/-- `STATUS.DONE` (R25). -/
def State.done (s : State) : Bool := s.status.getLsbD 0

/-- `STATUS.ERR` (R25). -/
def State.errFlag (s : State) : Bool := s.status.getLsbD 1

/-- `STATUS.KIND` (R25). -/
def State.kind (s : State) : BitVec 3 := s.status.extractLsb' 2 3

/-- `STATUS.ILLEGAL` (R25). -/
def State.illegalFlag (s : State) : Bool := s.status.getLsbD 5

/-- `STATUS.REASON` (R25). -/
def State.reason (s : State) : BitVec 2 := s.status.extractLsb' 6 2

/-- `CFG.STRICT` (R22). -/
def State.strict (s : State) : Bool := s.cfg.getLsbD 0

/-- `CFG.VALIDATE` (R22). -/
def State.validate (s : State) : Bool := s.cfg.getLsbD 1

/-- `REPL.CHAR` (R23). -/
def State.replChar (s : State) : Char21 := s.repl.extractLsb' 0 21

/-- `FSM.ESC_PENDING` (R28). -/
def State.escPending (s : State) : Bool := s.fsm.getLsbD 0

end Sys2Proof.Machine
end

