-- ==== Sys2Proof/Machine/Operands.lean ====
section
/-! DEFINITION. What a command reads: its payload, with the host duties of spec/30_encoding.md R81 and
spec/60_exceptions.md R251 checked, and its effective configuration (spec/10_state.md R35-R37). -/

namespace Sys2Proof.Machine

/-- The payload that is a given byte sequence. -/
def Payload.ofBytes : List Byte → Payload
  | [] => .empty
  | b :: bs => .byteSeq b bs

/-- The payload that is a given string. -/
def Payload.ofText : List Char21 → Payload
  | [] => .empty
  | c :: cs => .charSeq c cs

/-- `len(IN)`, in elements (R9, R10). -/
def Payload.length : Payload → Nat
  | .empty => 0
  | .byteSeq _ bs => bs.length + 1
  | .charSeq _ cs => cs.length + 1

/-- The payload as a string, if its elements are characters; `[]` has none (assumption log 11). -/
def Payload.asText : Payload → Option (List Char21)
  | .empty => some []
  | .byteSeq _ _ => none
  | .charSeq c cs => some (c :: cs)

/-- The payload as a byte sequence, if its elements are bytes; `[]` has none (assumption log 11). -/
def Payload.asBytes : Payload → Option (List Byte)
  | .empty => some []
  | .byteSeq b bs => some (b :: bs)
  | .charSeq _ _ => none

/-- F1: more than `IN_CAP` elements (R81, R251). -/
def State.overCapacity (s : State) (p : Payload) : Bool := decide (s.params.inCap < p.length)

/-- The string operand of `ENC`, `ENC.C`, `ELEN`, `COMPAT` (R81), or the ground of its refusal
(F1, F4, F2 of R251, in the order of R223 step 1; assumption log 12). -/
def State.textOperand (s : State) : Except Refusal (List Char21) :=
  if s.overCapacity s.port.input then .error .payloadTooLong
  else match s.port.input.asText with
    | none => .error .payloadType
    | some t => if t.all isScalar then .ok t else .error .payloadNotScalar

/-- The byte operand of `DEC`, `DEC.C` (R81): "any value 0x00-0xFF", or the ground of its refusal
(F1, F4; assumption log 12). -/
def State.byteOperand (s : State) : Except Refusal (List Byte) :=
  if s.overCapacity s.port.input then .error .payloadTooLong
  else match s.port.input.asBytes with
    | none => .error .payloadType
    | some b => .ok b

/-- The payload of `LKC`, `LKB`, `LKE`, `CFGD`, `CFGS`: it must be `[]` (R81), or the ground of its
refusal (F1, F3; assumption log 12). -/
def State.noOperand (s : State) : Except Refusal Unit :=
  if s.overCapacity s.port.input then .error .payloadTooLong
  else match s.port.input with
    | .empty => .ok ()
    | .byteSeq _ _ => .error .payloadNotEmpty
    | .charSeq _ _ => .error .payloadNotEmpty

/-- The configuration record `cfg` (R14). -/
structure CodecCfg where
  strict : Bool
  repl : Char21
  /-- 0 means unbounded. -/
  max : Nat
  validate : Bool
  deriving DecidableEq, Repr

/-- `DEFAULT_CFG` (R36). -/
def defaultCfg (P : Params) : CodecCfg :=
  { strict := false, repl := P.defaultRepl, max := 0, validate := false }

/-- `STRICT_CFG` (R37). -/
def strictCfg (P : Params) : CodecCfg :=
  { strict := true, repl := P.defaultRepl, max := 0, validate := false }

/-- `MAXLEN.MAX`, the `LEN_W` low bits (R24). -/
def State.maxLength (s : State) : Nat := s.maxlen.toNat % 2 ^ s.params.lenW

/-- The configuration the registers hold, used by a command with `UC = 1` (R35). -/
def State.registerCfg (s : State) : CodecCfg :=
  { strict := s.strict, repl := s.replChar, max := s.maxLength, validate := s.validate }

/-- The minimal variant's configurations (R3, R227). -/
def CodecCfg.minimal (cfg : CodecCfg) : Prop := cfg.max = 0 ∧ cfg.validate = false

/-- The length check of R141 and R161: strictly greater, and 0 means unbounded. -/
def CodecCfg.tooLong (cfg : CodecCfg) (len : Nat) : Bool :=
  decide (0 < cfg.max) && decide (cfg.max < len)

end Sys2Proof.Machine
end

