-- ==== Sys2Proof/Machine/Ops.lean ====
section
/-! DEFINITION. The shared operations on the state: the response a command leaves (success, error value,
illegal word), the configuration presets, and the register transactions (spec/10_state.md,
spec/44_config_host.md, spec/60_exceptions.md R244, spec/70_reset_and_hazards.md R270). -/

namespace Sys2Proof.Machine

/-- A command that returns no error: `OUT`, `RESULT`, `ERRINFO <- 0`, `STATUS <- {DONE=1}`, `FSM <- 0`
(R148, R173, R202, R203, R109, R224). -/
def State.succeed (s : State) (out : Payload) (result : Word) : State :=
  { s with status := statusOk, errinfo := 0#32, result := result, out := out, fsm := 0#32 }

/-- `report(e)`, the block's "trap entry": an error value is the command's response and transfers no
control (R244). -/
def State.report (s : State) (e : CodecError) : State :=
  { s with status := statusErr e, errinfo := e.info, result := 0#32, out := .empty, fsm := 0#32 }

/-- The illegal-command verdict (R226). -/
def State.illegalVerdict (s : State) : State :=
  { s with status := statusIllegal, errinfo := 0#32, result := 0#32, out := .empty, fsm := 0#32 }

/-- A command that leaves bytes: `OUT <- out ; RESULT <- len(out)`, or the report (R148, R149). -/
def State.answerBytes (s : State) : Result (List Byte) → State
  | .ok out => s.succeed (.ofBytes out) (s.params.lenWord out.length)
  | .err e => s.report e

/-- A command that leaves a string: `OUT <- t ; RESULT <- len(t)`, or the report (R173, R174). -/
def State.answerText (s : State) : Result (List Char21) → State
  | .ok t => s.succeed (.ofText t) (s.params.lenWord t.length)
  | .err e => s.report e

/-- A command that leaves a count in `RESULT` and nothing in `OUT`, or the report (R202). -/
def State.answerCount (s : State) : Result Nat → State
  | .ok n => s.succeed .empty (s.params.lenWord n)
  | .err e => s.report e

/-- Loading a configuration preset into the registers `CFG`, `REPL`, `MAXLEN` (R224, R225). -/
def State.loadCfg (s : State) (cfg : CodecCfg) : State :=
  { s with
    cfg := 0#30 ++ BitVec.ofBool cfg.validate ++ BitVec.ofBool cfg.strict
    repl := cfg.repl.setWidth 32
    maxlen := s.params.lenWord cfg.max }

/-- `x[i]`: the register file (R11, R38), `x[7]` hard-wired to zero (R29); F6 of R251 at `i >= 8`. -/
def State.readReg (s : State) (i : Nat) : Except Refusal Word :=
  match i with
  | 0 => .ok s.cfg
  | 1 => .ok s.repl
  | 2 => .ok s.maxlen
  | 3 => .ok s.status
  | 4 => .ok s.errinfo
  | 5 => .ok s.result
  | 6 => .ok s.fsm
  | 7 => .ok 0#32
  | _ => .error .registerIndex

/-- `WRITE_REG(i, v)` (R221): reserved bits are dropped, writes to read-only and reserved registers
are ignored; F5 and F6 of R251. -/
def State.writeReg (s : State) (i : Nat) (v : Word) : Except Refusal State :=
  match i with
  | 0 => .ok { s with cfg := (v.extractLsb' 0 2).setWidth 32 }
  | 1 =>
    if isScalar (v.extractLsb' 0 21) then .ok { s with repl := (v.extractLsb' 0 21).setWidth 32 }
    else .error .replNotScalar
  | 2 => .ok { s with maxlen := s.params.lenWord v.toNat }
  | 3 => .ok s
  | 4 => .ok s
  | 5 => .ok s
  | 6 => .ok s
  | 7 => .ok s
  | _ => .error .registerIndex

/-- `RESET`: every component of R20 at its reset value; the host port is outside the block, a refusal
mark stays, and the parameters are the block's own (R270; assumption log 14). -/
def State.resetBlock (s : State) : State := State.resetOf s.params s.port

/-- A register's byte on lane `k` of a bus realisation: bit 0 of the register is bit 0 of the byte at
the lowest address (R52). No rule depends on it. -/
def busLane (w : Word) (k : Fin 4) : Byte := w.extractLsb' (8 * k.val) 8

end Sys2Proof.Machine
end

