-- ==== Sys2Proof/Machine/Decoder.lean ====
section
/-! DEFINITION. The decoder, its escape-prefix state machine, the validation pass and the commands
`DEC` and `DEC.C` (spec/42_decoder.md). -/

namespace Sys2Proof.Machine

/-- The states of the escape-prefix machine (R162). They live inside one pass only (R171). -/
inductive FsmState where
  | plain
  | escapePending
  deriving DecidableEq, Repr

/-- The encoding in `FSM.ESC_PENDING` (R162). -/
def FsmState.code : FsmState → Word
  | .plain => 0#32
  | .escapePending => 1#32

/-- Strict mode raises the error in place of emitting; non-strict mode emits `cfg.repl`, next state
`Plain` (the last column of R163). -/
def substituteOr (cfg : CodecCfg) (e : CodecError) : Result (FsmState × List Char21) :=
  if cfg.strict then .err e else .ok (.plain, [cfg.repl])

/-- One byte in state `Plain`: T1 to T4 of R163. `highStrict` is false in the main pass; in the
validation pass of R169 with `VAL_HIGH_STRICT` it makes T4 an error when the pass is strict. -/
def plainStep (P : Params) (T : Tables) (highStrict : Bool) (cfg : CodecCfg) (b : Byte) :
    Result (FsmState × List Char21) :=
  if b = P.esc then .ok (.escapePending, [])
  else if b.toNat < P.baseSize then
    match T.baseAt b with
    | some c => .ok (.plain, [c])
    | none => substituteOr cfg (.invalidByte b)
  else if highStrict then substituteOr cfg (.invalidByte b)
  else .ok (.plain, [cfg.repl])

/-- One byte in state `EscapePending`: T5 and T6 of R163, whatever the byte's value. -/
def escapeStep (T : Tables) (cfg : CodecCfg) (b : Byte) : Result (FsmState × List Char21) :=
  match T.extAt b with
  | some c => .ok (.plain, [c])
  | none => substituteOr cfg (.invalidEscapeSequence b)

/-- The transition function `step(q, b, cfg)` (R163). -/
def fsmStep (P : Params) (T : Tables) (highStrict : Bool) (cfg : CodecCfg) (q : FsmState) (b : Byte) :
    Result (FsmState × List Char21) :=
  match q with
  | .plain => plainStep P T highStrict cfg b
  | .escapePending => escapeStep T cfg b

/-- The end of input, `finish(q, cfg)`: E1 and E2 of R164. -/
def fsmFinish (cfg : CodecCfg) (q : FsmState) : Result (FsmState × List Char21) :=
  match q with
  | .plain => .ok (.plain, [])
  | .escapePending => substituteOr cfg (.malformedData .escAtEnd)

/-- A pass from state `q` on: R163 folded over the input, then R164 (R165). -/
def runFrom (P : Params) (T : Tables) (highStrict : Bool) (cfg : CodecCfg) :
    FsmState → List Byte → Result (List Char21)
  | q, [] =>
    match fsmFinish cfg q with
    | .err e => .err e
    | .ok (_, t) => .ok t
  | q, b :: rest =>
    match fsmStep P T highStrict cfg q b with
    | .err e => .err e
    | .ok (q', t) =>
      match runFrom P T highStrict cfg q' rest with
      | .err e => .err e
      | .ok text => .ok (t ++ text)

/-- The main pass `run(bytes, cfg)`: it starts in `Plain` (R162, R165, R171). -/
def runPass (P : Params) (T : Tables) (bytes : List Byte) (cfg : CodecCfg) : Result (List Char21) :=
  runFrom P T false cfg .plain bytes

/-- The configuration the validation pass classifies with (R168, R169). -/
def validationCfg (P : Params) (cfg : CodecCfg) : CodecCfg :=
  match P.validateMode with
  | .followConfig => cfg
  | .strictAlways => { cfg with strict := true }

/-- The validation pass: the same classification, a verdict and no characters (R168); its other
readings by the parameters of R169 (assumption log 10). -/
def validatePass (P : Params) (T : Tables) (bytes : List Byte) (cfg : CodecCfg) : Result Unit :=
  match runFrom P T P.valHighStrict (validationCfg P cfg) .plain bytes with
  | .ok _ => .ok ()
  | .err e => .err e

/-- `decode(bytes, cfg)` (R160): the length check, in bytes and before any classification (R161), then
the validation pass if `cfg.validate`, then the main pass. -/
def decodeBytes (P : Params) (T : Tables) (bytes : List Byte) (cfg : CodecCfg) :
    Result (List Char21) :=
  if cfg.tooLong bytes.length then .err (.malformedData .lengthExceeded)
  else if cfg.validate then
    match validatePass P T bytes cfg with
    | .err e => .err e
    | .ok _ => runPass P T bytes cfg
  else runPass P T bytes cfg

/-- `DEC` (R173). -/
def execDec (s : State) : Host.Outcome State Fault Refusal :=
  match s.byteOperand with
  | .error r => .refused r
  | .ok bytes => .next (s.answerText (decodeBytes s.params.codec s.tables bytes (defaultCfg s.params.codec)))

/-- `DEC.C` (R174). -/
def execDecC (s : State) : Host.Outcome State Fault Refusal :=
  match s.byteOperand with
  | .error r => .refused r
  | .ok bytes => .next (s.answerText (decodeBytes s.params.codec s.tables bytes s.registerCfg))

end Sys2Proof.Machine
end

