-- ==== Sys2Proof/Machine/Encoder.lean ====
section
/-! DEFINITION. The encoder and its commands `ENC` and `ENC.C` (spec/41_encoder.md). -/

namespace Sys2Proof.Machine

/-- `codepoint(c)`: the character as a natural number (R143). -/
def codePoint (c : Char21) : Nat := c.toNat

/-- What an unmapped character gives: the error in strict mode (R143), otherwise the replacement's own
code, or `FALLBACK` if that is unmapped too; the lookup does not recurse (R144, R145). -/
def encodeUnmapped (P : Params) (T : Tables) (cfg : CodecCfg) (c : Char21) : Result (List Byte) :=
  if cfg.strict then .err (.unsupportedCharacter c (codePoint c))
  else match T.invAt cfg.repl with
    | some k => .ok (k.bytes P)
    | none => .ok [P.fallback]

/-- `encodeChar(c, cfg)` (R142). -/
def encodeChar (P : Params) (T : Tables) (cfg : CodecCfg) (c : Char21) : Result (List Byte) :=
  match T.invAt c with
  | some k => .ok (k.bytes P)
  | none => encodeUnmapped P T cfg c

/-- The loop of R140, from some character on: in order, and the first error ends it. -/
def encodeFrom (P : Params) (T : Tables) (cfg : CodecCfg) : List Char21 → Result (List Byte)
  | [] => .ok []
  | c :: rest =>
    match encodeChar P T cfg c with
    | .err e => .err e
    | .ok bytes =>
      match encodeFrom P T cfg rest with
      | .err e => .err e
      | .ok out => .ok (bytes ++ out)

/-- `encode(text, cfg)` (R140): the length check, in characters and before any lookup (R141), then the
characters. -/
def encodeText (P : Params) (T : Tables) (text : List Char21) (cfg : CodecCfg) : Result (List Byte) :=
  if cfg.tooLong text.length then .err (.malformedData .lengthExceeded)
  else encodeFrom P T cfg text

/-- `ENC` (R148). -/
def execEnc (s : State) : Host.Outcome State Fault Refusal :=
  match s.textOperand with
  | .error r => .refused r
  | .ok text => .next (s.answerBytes (encodeText s.params.codec s.tables text (defaultCfg s.params.codec)))

/-- `ENC.C` (R149). -/
def execEncC (s : State) : Host.Outcome State Fault Refusal :=
  match s.textOperand with
  | .error r => .refused r
  | .ok text => .next (s.answerBytes (encodeText s.params.codec s.tables text s.registerCfg))

end Sys2Proof.Machine
end

