-- ==== Sys2Proof/Machine/Lookup.lean ====
section
/-! DEFINITION. The table-lookup commands `LKC`, `LKB` and `LKE` (spec/40_tables.md R109-R112). -/

namespace Sys2Proof.Machine

/-- `LKC`'s descriptor: `{22'b0, ESC_FORM, PRESENT, byte[7:0]}`, 0 for an absent Code (R109). -/
def codeDescriptor : Option Code → Word
  | some (.single b) => 0#22 ++ 0#1 ++ 1#1 ++ b
  | some (.escape s) => 0#22 ++ 1#1 ++ 1#1 ++ s
  | none => 0#32

/-- The descriptor of `LKB` and `LKE`: `{10'b0, PRESENT, c[20:0]}`, 0 for an absent character
(R110, R111). -/
def charDescriptor : Option Char21 → Word
  | some c => 0#10 ++ 1#1 ++ c
  | none => 0#32

/-- `LKC c` (R109). -/
def execLkc (c : Char21) (s : State) : Host.Outcome State Fault Refusal :=
  match s.noOperand with
  | .error r => .refused r
  | .ok _ => .next (s.succeed .empty (codeDescriptor (s.tables.invAt c)))

/-- `LKB b`: a byte of 0x80 or above reports absent (R110). -/
def execLkb (b : Byte) (s : State) : Host.Outcome State Fault Refusal :=
  match s.noOperand with
  | .error r => .refused r
  | .ok _ =>
    .next (s.succeed .empty (charDescriptor (if b.toNat < s.params.codec.baseSize then s.tables.baseAt b else none)))

/-- `LKE x` (R111). -/
def execLke (x : Byte) (s : State) : Host.Outcome State Fault Refusal :=
  match s.noOperand with
  | .error r => .refused r
  | .ok _ => .next (s.succeed .empty (charDescriptor (s.tables.extAt x)))

end Sys2Proof.Machine
end

