-- ==== Sys2Proof/Machine/Measure.lean ====
section
/-! DEFINITION. The measurement functions and their commands `ELEN` and `COMPAT`
(spec/43_measurement.md). -/

namespace Sys2Proof.Machine

/-- The length of a Code: 1 or 2 bytes (R70, R200). -/
def Code.size : Code → Nat
  | .single _ => 1
  | .escape _ => 2

/-- `encoded_len(text)`: always strict, no configuration, no length limit (R200). -/
def encodedLen (T : Tables) : List Char21 → Result Nat
  | [] => .ok 0
  | c :: rest =>
    match T.invAt c with
    | none => .err (.unsupportedCharacter c (codePoint c))
    | some k =>
      match encodedLen T rest with
      | .err e => .err e
      | .ok n => .ok (k.size + n)

/-- `is_gsm7_compatible(text)`: whether `encoded_len` would succeed (R201). -/
def isCompatible (T : Tables) (text : List Char21) : Bool :=
  match encodedLen T text with
  | .ok _ => true
  | .err _ => false

/-- `ELEN` (R202). -/
def execElen (s : State) : Host.Outcome State Fault Refusal :=
  match s.textOperand with
  | .error r => .refused r
  | .ok text => .next (s.answerCount (encodedLen s.tables text))

/-- `COMPAT`: incompatibility is a `false` result, not an error (R203). -/
def execCompat (s : State) : Host.Outcome State Fault Refusal :=
  match s.textOperand with
  | .error r => .refused r
  | .ok text => .next (s.succeed .empty (if isCompatible s.tables text then 1#32 else 0#32))

end Sys2Proof.Machine
end

