-- ==== Sys2Proof/Machine/Preset.lean ====
section
/-! DEFINITION. The configuration preset commands `CFGD` and `CFGS` (spec/44_config_host.md R224,
R225). -/

namespace Sys2Proof.Machine

/-- `CFGD`: load the default configuration (R224). -/
def execCfgd (s : State) : Host.Outcome State Fault Refusal :=
  match s.noOperand with
  | .error r => .refused r
  | .ok _ => .next ((s.loadCfg (defaultCfg s.params.codec)).succeed .empty 0#32)

/-- `CFGS`: load the `strict()` configuration (R225). -/
def execCfgs (s : State) : Host.Outcome State Fault Refusal :=
  match s.noOperand with
  | .error r => .refused r
  | .ok _ => .next ((s.loadCfg (strictCfg s.params.codec)).succeed .empty 0#32)

end Sys2Proof.Machine
end

