-- ==== Sys2Proof/Machine/Dispatch.lean ====
section
/-! DEFINITION. The dispatch: one arm per command of spec/30_encoding.md R76. -/

namespace Sys2Proof.Machine

def exec (i : Instr) (s : State) : Host.Outcome State Fault Refusal :=
  match i with
  | .enc => Sys2Proof.Machine.execEnc s
  | .encC => Sys2Proof.Machine.execEncC s
  | .dec => Sys2Proof.Machine.execDec s
  | .decC => Sys2Proof.Machine.execDecC s
  | .elen => Sys2Proof.Machine.execElen s
  | .compat => Sys2Proof.Machine.execCompat s
  | .lkc c => Sys2Proof.Machine.execLkc c s
  | .lkb b => Sys2Proof.Machine.execLkb b s
  | .lke x => Sys2Proof.Machine.execLke x s
  | .cfgd => Sys2Proof.Machine.execCfgd s
  | .cfgs => Sys2Proof.Machine.execCfgs s

end Sys2Proof.Machine
end

