-- ==== Sys2Proof/Machine/Transaction.lean ====
section
/-! DEFINITION. The host transactions (spec/44_config_host.md R220-R223, R226), and a run of them with
the refusal mark (spec/60_exceptions.md R251, spec/70_reset_and_hazards.md R282). -/

namespace Sys2Proof.Machine

/-- A transaction's end: it returns `r`, and its payload is gone (R20). -/
def State.respond (s : State) (r : Response) : State :=
  { s with port := { s.port with input := .empty, response := r } }

/-- The response of a `COMMAND`: `(STATUS, ERRINFO, RESULT, OUT)` (R223 step 6). -/
def State.commandResponse (s : State) : Response := .command s.status s.errinfo s.result s.out

/-- The state in which a `COMMAND` with payload `p` is performed. -/
def State.withInput (s : State) (p : Payload) : State := { s with port := { s.port with input := p } }

/-- A command's outcome with the response returned to the host (R223 step 6). -/
def respondCommand : Host.Outcome State Fault Refusal → Host.Outcome State Fault Refusal
  | .next s => .next (s.respond s.commandResponse)
  | .fault f => .fault f
  | .refused r => .refused r

/-- `COMMAND(w, IN)` (R223). A legal command checks its payload by its own row; for an illegal word
`IN` is ignored and only the `IN_CAP` bound applies. -/
def performCommand (w : Word) (p : Payload) (s : State) : Host.Outcome State Fault Refusal :=
  match decode w with
  | .legal i => respondCommand (exec i (s.withInput p))
  | .illegal _ =>
    if s.overCapacity p then .refused .payloadTooLong
    else respondCommand (.next s.illegalVerdict)

/-- One host transaction on the block (R220). -/
def perform (t : Transaction) (s : State) : Host.Outcome State Fault Refusal :=
  match t with
  | .reset => .next (s.resetBlock.respond .nothing)
  | .writeReg i v =>
    match s.writeReg i v with
    | .ok s' => .next (s'.respond .nothing)
    | .error r => .refused r
  | .readReg i =>
    match s.readReg i with
    | .ok v => .next (s.respond (.value v))
    | .error r => .refused r
  | .command w p => performCommand w p s

/-- The next step of a block whose host has the transactions `s.port.pending` to issue: the first one
is performed; with none left the block is idle and stays as it is (R256, R272; assumption log 1).
A marked state gives no transaction a meaning (R251; assumption log 4). -/
def nextTransaction (s : State) : Host.Outcome State Fault Refusal :=
  match s.port.refusal with
  | some r => .refused r
  | none =>
    match s.port.pending with
    | [] => .next s
    | t :: rest => perform t { s with port := { s.port with pending := rest } }

/-- The state with `ts` as the host's transactions still to be issued. -/
def State.withPending (s : State) (ts : List Transaction) : State :=
  { s with port := { s.port with pending := ts } }

/-- The state with the refusal mark `r` (R251). -/
def State.mark (s : State) (r : Refusal) : State :=
  { s with port := { s.port with refusal := some r } }

/-- The model state after the host issues `t`: a refused transaction leaves its mark and nothing else,
and a marked state stays as it is, under `RESET` too (R251, R270; assumption log 4). -/
def State.issue (s : State) (t : Transaction) : State :=
  match s.port.refusal with
  | some _ => s
  | none =>
    match perform t s with
    | .next s' => s'
    | .fault f => nomatch f
    | .refused r => s.mark r

/-- A run: "a finite sequence of host transactions" (R282). -/
def State.hostRun (s : State) (ts : List Transaction) : State := ts.foldl State.issue s

end Sys2Proof.Machine
end

