-- ==== Sys2Proof/Machine/Step.lean ====
section
/-! DEFINITION. One step of the machine, and the placing of a command word where the next step takes
its transaction (assumption log 1). -/

namespace Sys2Proof.Machine

/-- One step: one host transaction, atomically (spec/00_scope.md R8, spec/20_memory.md R55). -/
def step (s : State) : Host.Outcome State Fault Refusal := nextTransaction s

/-- `s` with `COMMAND(w, [])` as the host's very next transaction, the word's bits above `nbits` being
zero (assumption log 1). -/
def State.withFetchWord (s : State) (nbits w : Nat) : State :=
  s.withPending (.command (tableWord nbits w) .empty :: s.port.pending)

end Sys2Proof.Machine
end

