-- ==== Sys2Proof/Machine/Assembly.lean ====
section
/-! DEFINITION. The host assembly notation: one transaction per line, the pseudo-instructions and the
printed form of a command word (spec/30_encoding.md R82-R84; assumption log 15 for the lexical points
the rules leave open). Text is a list of characters. No step reads it. -/

namespace Sys2Proof.Machine

/-! ### Pseudo-instructions (R83) -/

/-- `SETCFG s, v, r, m` (R83). -/
def pseudoSetcfg (s v r m : Nat) : List Transaction :=
  [ .writeReg 0 (BitVec.ofNat 32 (2 * v + s)), .writeReg 1 (BitVec.ofNat 32 r)
  , .writeReg 2 (BitVec.ofNat 32 m) ]

/-- `STRICT` (R83). -/
def pseudoStrict : List Transaction := [.command (encode .cfgs) .empty]

/-- `LENIENT` (R83). -/
def pseudoLenient : List Transaction := [.command (encode .cfgd) .empty]

/-- `MINIMAL s, r` (R83). -/
def pseudoMinimal (s r : Nat) : List Transaction :=
  [.writeReg 0 (BitVec.ofNat 32 s), .writeReg 1 (BitVec.ofNat 32 r), .writeReg 2 0#32]

/-- `NOP` (R83). -/
def pseudoNop : List Transaction := [.readReg 3]

/-! ### Tokens -/

/-- The tokens of a line. -/
inductive Tok where
  | word (text : List Char)
  | chr (c : Char21)
  | str (s : List Char21)
  | comma
  | openBracket
  | closeBracket
  deriving DecidableEq, Repr

/-- Where the scan of a line stands; text read so far is held in reverse. -/
inductive LexMode where
  | idle
  | word (acc : List Char)
  | chrOpen
  | chrClose (c : Char21)
  | str (acc : List Char21)
  | strEscape (acc : List Char21)
  | strBrace (acc : List Char21)
  | strHex (acc : List Char21) (digits : List Char)
  deriving DecidableEq, Repr

/-- What one character of a line does: it goes on with some tokens, starts a comment, or is no text of
the notation. -/
inductive LexStep where
  | go (toks : List Tok) (m : LexMode)
  | comment (toks : List Tok)
  | bad
  deriving DecidableEq, Repr

/-- The character element of a source character. -/
def char21 (c : Char) : Char21 := BitVec.ofNat 21 c.toNat

/-- A hexadecimal digit's value. -/
def hexValue (c : Char) : Option Nat :=
  let n := c.toNat
  if 0x30 ≤ n ∧ n ≤ 0x39 then some (n - 0x30)
  else if 0x41 ≤ n ∧ n ≤ 0x46 then some (n - 0x41 + 10)
  else if 0x61 ≤ n ∧ n ≤ 0x66 then some (n - 0x61 + 10)
  else none

/-- The digits of a number in some base, most significant first, after `acc`. -/
def readDigits (base : Nat) : List Char → Nat → Option Nat
  | [], acc => some acc
  | c :: cs, acc =>
    match hexValue c with
    | some d => if d < base then readDigits base cs (acc * base + d) else none
    | none => none

/-- A number with at least one digit in some base. -/
def readBase (base : Nat) : List Char → Option Nat
  | [] => none
  | c :: cs => readDigits base (c :: cs) 0

/-- A number: `0x` and hexadecimal digits, or decimal digits (R9, R82). -/
def readNumber : List Char → Option Nat
  | '0' :: 'x' :: ds => readBase 16 ds
  | ds => readBase 10 ds

/-- One character outside a word and a literal. -/
def lexIdle (c : Char) : LexStep :=
  if c = ';' then .comment []
  else if c = ' ' ∨ c = '\t' then .go [] .idle
  else if c = ',' then .go [.comma] .idle
  else if c = '[' then .go [.openBracket] .idle
  else if c = ']' then .go [.closeBracket] .idle
  else if c = '"' then .go [] (.str [])
  else if c = '\'' then .go [] .chrOpen
  else .go [] (.word [c])

/-- Tokens put before what a character does. -/
def LexStep.after (t : Tok) : LexStep → LexStep
  | .go toks m => .go (t :: toks) m
  | .comment toks => .comment (t :: toks)
  | .bad => .bad

/-- Whether a character ends a word. -/
def endsWord (c : Char) : Bool :=
  c = ';' || c = ' ' || c = '\t' || c = ',' || c = '[' || c = ']' || c = '"' || c = '\''

/-- One character of a line (R82): words, `'c'`, and `"..."` with the escapes `\u` with a braced
code point, and a doubled backslash. -/
def lexStep (m : LexMode) (c : Char) : LexStep :=
  match m with
  | .idle => lexIdle c
  | .word acc => if endsWord c then (lexIdle c).after (.word acc.reverse) else .go [] (.word (c :: acc))
  | .chrOpen => .go [] (.chrClose (char21 c))
  | .chrClose x => if c = '\'' then .go [.chr x] .idle else .bad
  | .str acc =>
    if c = '"' then .go [.str acc.reverse] .idle
    else if c = '\\' then .go [] (.strEscape acc)
    else .go [] (.str (char21 c :: acc))
  | .strEscape acc =>
    if c = '\\' then .go [] (.str (char21 c :: acc))
    else if c = 'u' then .go [] (.strBrace acc)
    else .bad
  | .strBrace acc => if c.toNat = 0x7B then .go [] (.strHex acc []) else .bad
  | .strHex acc digits =>
    if c.toNat = 0x7D then
      match readBase 16 digits.reverse with
      | some n => if n < 2 ^ 21 then .go [] (.str (BitVec.ofNat 21 n :: acc)) else .bad
      | none => .bad
    else .go [] (.strHex acc (c :: digits))

/-- The end of a line: a literal must be closed. -/
def lexEnd : LexMode → Option (List Tok)
  | .idle => some []
  | .word acc => some [.word acc.reverse]
  | .chrOpen => none
  | .chrClose _ => none
  | .str _ => none
  | .strEscape _ => none
  | .strBrace _ => none
  | .strHex _ _ => none

/-- The tokens of a line, a `;` outside a literal starting a comment (R82). -/
def lexFrom : LexMode → List Char → Option (List Tok)
  | m, [] => lexEnd m
  | m, c :: cs =>
    match lexStep m c with
    | .go toks m' => (lexFrom m' cs).map (toks ++ ·)
    | .comment toks => some toks
    | .bad => none

/-! ### Lines -/

/-- The register operand: a name or an index (R82). -/
def readRegister (w : List Char) : Option Nat :=
  if w = ['C', 'F', 'G'] then some 0
  else if w = ['R', 'E', 'P', 'L'] then some 1
  else if w = ['M', 'A', 'X', 'L', 'E', 'N'] then some 2
  else if w = ['S', 'T', 'A', 'T', 'U', 'S'] then some 3
  else if w = ['E', 'R', 'R', 'I', 'N', 'F', 'O'] then some 4
  else if w = ['R', 'E', 'S', 'U', 'L', 'T'] then some 5
  else if w = ['F', 'S', 'M'] then some 6
  else if w = ['X', '7'] then some 7
  else readNumber w

/-- A number below a bound. -/
def readBounded (bound : Nat) (w : List Char) : Option Nat :=
  match readNumber w with
  | some n => if n < bound then some n else none
  | none => none

/-- The operand a mnemonic takes. -/
inductive ArgKind where
  | none
  | character
  | byte
  deriving DecidableEq, Repr

/-- The mnemonics of R76 with their `OP`, `UC` and operand. -/
def mnemonics : List (List Char × BitVec 4 × Bool × ArgKind) :=
  [ (['E', 'N', 'C'], 0x1#4, false, .none)
  , (['E', 'N', 'C', '.', 'C'], 0x1#4, true, .none)
  , (['D', 'E', 'C'], 0x2#4, false, .none)
  , (['D', 'E', 'C', '.', 'C'], 0x2#4, true, .none)
  , (['E', 'L', 'E', 'N'], 0x3#4, false, .none)
  , (['C', 'O', 'M', 'P', 'A', 'T'], 0x4#4, false, .none)
  , (['L', 'K', 'C'], 0x5#4, false, .character)
  , (['L', 'K', 'B'], 0x6#4, false, .byte)
  , (['L', 'K', 'E'], 0x7#4, false, .byte)
  , (['C', 'F', 'G', 'D'], 0x8#4, false, .none)
  , (['C', 'F', 'G', 'S'], 0x9#4, false, .none) ]

/-- The elements of a byte list up to its closing bracket, which ends the line. DESIGN CHOICE: an element
has any number of digits from one up, and may be decimal (assumption log 25). -/
def readByteList : List Tok → Option (List Byte)
  | [.word w, .closeBracket] =>
    match readBounded 0x100 w with
    | some n => some [BitVec.ofNat 8 n]
    | none => none
  | .word w :: .comma :: rest =>
    match readBounded 0x100 w, readByteList rest with
    | some n, some bs => some (BitVec.ofNat 8 n :: bs)
    | _, _ => none
  | _ => none

/-- The payload: absent, a string literal or a byte list (R82). -/
def readPayload : List Tok → Option Payload
  | [] => some .empty
  | [.comma, .str s] => some (.ofText s)
  | [.comma, .openBracket, .closeBracket] => some .empty
  | .comma :: .openBracket :: rest => (readByteList rest).map .ofBytes
  | _ => none

/-- The operand of `LKC`: a character literal or `U+XXXX` (R82). DESIGN CHOICE: a `U+` operand that fits
21 bits and names no scalar value is accepted and assembles to an illegal word (assumption log 24), and any number of digits from one up is
read (assumption log 25). -/
def readCharArg : Tok → Option Char21
  | .chr c => some c
  | .word ('U' :: '+' :: ds) =>
    match readBase 16 ds with
    | some n => if n < 2 ^ 21 then some (BitVec.ofNat 21 n) else none
    | none => none
  | _ => none

/-- The operand of `LKB` and `LKE`: a byte (R82). DESIGN CHOICE: any number of digits from one up, and
decimal as well (assumption log 25). -/
def readByteArg : Tok → Option Char21
  | .word w => (readBounded 0x100 w).map (BitVec.ofNat 21)
  | _ => none

/-- The operand and the payload after a mnemonic. -/
def readArguments (kind : ArgKind) (toks : List Tok) : Option (Char21 × Payload) :=
  match kind, toks with
  | .none, rest => (readPayload rest).map fun p => (0#21, p)
  | .character, t :: rest =>
    match readCharArg t, readPayload rest with
    | some c, some p => some (c, p)
    | _, _ => none
  | .byte, t :: rest =>
    match readByteArg t, readPayload rest with
    | some b, some p => some (b, p)
    | _, _ => none
  | _, [] => none

/-- `CMD <mnemonic> [<arg>] [, <payload>]`: the word is `{0b000, ARG, 0b000, UC, OP}` (R82). -/
def readCommand (name : List Char) (toks : List Tok) : Option (List Transaction) :=
  match mnemonics.lookup name with
  | some (op, uc, kind) =>
    match readArguments kind toks with
    | some (arg, p) => some [.command (commandWord op uc arg) p]
    | none => none
  | none => none

/-- `WR <reg>, <imm32>` (R82). -/
def readWrite (reg imm : List Char) : Option (List Transaction) :=
  match readRegister reg, readBounded (2 ^ 32) imm with
  | some i, some v => some [.writeReg i (BitVec.ofNat 32 v)]
  | _, _ => none

/-- `SETCFG s, v, r, m`: a flag is 0 or 1, the other operands 32-bit values (R83). -/
def readSetcfg (s v r m : List Char) : Option (List Transaction) :=
  match readBounded 2 s, readBounded 2 v, readBounded (2 ^ 32) r, readBounded (2 ^ 32) m with
  | some s, some v, some r, some m => some (pseudoSetcfg s v r m)
  | _, _, _, _ => none

/-- `MINIMAL s, r` (R83). -/
def readMinimal (s r : List Char) : Option (List Transaction) :=
  match readBounded 2 s, readBounded (2 ^ 32) r with
  | some s, some r => some (pseudoMinimal s r)
  | _, _ => none

/-- The transactions of a line's tokens (R82, R83; the `.word` line of R84). DESIGN CHOICE: a `.word` line may
hold any word, legal or illegal, with any number of digits from one up or in decimal (assumption
log 26). -/
def readLine : List Tok → Option (List Transaction)
  | [] => some []
  | [.word ['R', 'E', 'S', 'E', 'T']] => some [.reset]
  | [.word ['S', 'T', 'R', 'I', 'C', 'T']] => some pseudoStrict
  | [.word ['L', 'E', 'N', 'I', 'E', 'N', 'T']] => some pseudoLenient
  | [.word ['N', 'O', 'P']] => some pseudoNop
  | [.word ['R', 'D'], .word reg] => (readRegister reg).map fun i => [.readReg i]
  | [.word ['W', 'R'], .word reg, .comma, .word imm] => readWrite reg imm
  | [.word ['.', 'w', 'o', 'r', 'd'], .word w] =>
    (readBounded (2 ^ 32) w).map fun n => [.command (BitVec.ofNat 32 n) .empty]
  | [.word ['S', 'E', 'T', 'C', 'F', 'G'], .word s, .comma, .word v, .comma, .word r, .comma, .word m] =>
    readSetcfg s v r m
  | [.word ['M', 'I', 'N', 'I', 'M', 'A', 'L'], .word s, .comma, .word r] => readMinimal s r
  | .word ['C', 'M', 'D'] :: .word name :: rest => readCommand name rest
  | _ => none

/-- The transactions one line of host assembly stands for; `none` where it is no line of the notation
(R82). -/
def assembleLine (line : List Char) : Option (List Transaction) :=
  match lexFrom .idle line with
  | some toks => readLine toks
  | none => none

/-! ### Printed forms (R84) -/

/-- A hexadecimal digit. -/
def hexDigit (d : BitVec 4) : Char :=
  Char.ofNat (if d.toNat < 10 then 0x30 + d.toNat else 0x41 + (d.toNat - 10))

/-- The `k` low hexadecimal digits of a word, most significant first. -/
def hexDigits (w : Word) : Nat → List Char
  | 0 => []
  | k + 1 => hexDigit (w.extractLsb' (4 * k) 4) :: hexDigits w k

/-- `U+XXXX`, with at least four digits. -/
def printChar (c : Char21) : List Char :=
  ['U', '+'] ++ hexDigits (c.setWidth 32)
    (if c.toNat < 0x10000 then 4 else if c.toNat < 0x100000 then 5 else 6)

/-- `0xNN`. -/
def printByte (b : Byte) : List Char := ['0', 'x'] ++ hexDigits (b.setWidth 32) 2

/-- A command prints as its mnemonic, with the operand of a lookup (R84). -/
def printInstr : Instr → List Char
  | .enc => ['E', 'N', 'C']
  | .encC => ['E', 'N', 'C', '.', 'C']
  | .dec => ['D', 'E', 'C']
  | .decC => ['D', 'E', 'C', '.', 'C']
  | .elen => ['E', 'L', 'E', 'N']
  | .compat => ['C', 'O', 'M', 'P', 'A', 'T']
  | .lkc c => ['L', 'K', 'C', ' '] ++ printChar c
  | .lkb b => ['L', 'K', 'B', ' '] ++ printByte b
  | .lke s => ['L', 'K', 'E', ' '] ++ printByte s
  | .cfgd => ['C', 'F', 'G', 'D']
  | .cfgs => ['C', 'F', 'G', 'S']

/-- The printed form of a command word; an illegal one prints as `.word 0xXXXXXXXX` (R84). -/
def printWord (w : Word) : List Char :=
  match decode w with
  | .legal i => printInstr i
  | .illegal _ => ['.', 'w', 'o', 'r', 'd', ' ', '0', 'x'] ++ hexDigits w 8

/-- The line that issues a printed word: `CMD` before a mnemonic, nothing before `.word` (R82, R84). -/
def printLine (w : Word) : List Char :=
  match decode w with
  | .legal _ => ['C', 'M', 'D', ' '] ++ printWord w
  | .illegal _ => printWord w

end Sys2Proof.Machine
end

