-- ==== Sys2Proof/Safety.lean ====
section
/-! DEFINITION. What the statements are about: the table invariants, the invariant of the state, the
host's duties, and the spec's own second descriptions of what the codec computes (the source's two-byte
scan, the substitution of non-strict mode, well-formed byte sequences). No step reads any of these. -/

namespace Sys2Proof.Machine

/-! ### Invariants -/

/-- The table invariants of R100, R101, R103, R107 for any table contents, and `INV` as R105 builds it. -/
structure TablesWf (T : Tables) : Prop where
  /-- 128 slots (R100). -/
  size : T.base.length = hw.baseSize
  /-- R107 (c). -/
  escSlotEmpty : T.base[0x1B]? = some none
  /-- A slot holds a scalar value (R100). -/
  baseScalar : ∀ c, some c ∈ T.base → isScalar c = true
  /-- R107 (a), base. -/
  baseInjective : (T.base.filterMap id).Nodup
  /-- An extension entry holds a scalar value (R103). -/
  extScalar : ∀ e ∈ T.ext, isScalar e.2 = true
  /-- `EXT` is a map, its keys in ascending order (R103, R105). -/
  extAscending : T.ext.Pairwise fun a b => a.1.toNat < b.1.toNat
  /-- R107 (a), extension. -/
  extInjective : (T.ext.map Prod.snd).Nodup
  /-- R107 (b). -/
  disjoint : ∀ e ∈ T.ext, some e.2 ∉ T.base
  /-- R107 (d). -/
  escNoKey : ∀ e ∈ T.ext, e.1 ≠ 0x1B#8
  /-- `INV` is built from `BASE` and `EXT` (R31, R105). -/
  inverse : T.inv = buildInv T.base T.ext

/-- Every suffix has bit 7 = 0, as "in the default extension table" (R70). -/
def SevenBitSuffixes (T : Tables) : Prop := ∀ e ∈ T.ext, e.1.toNat < 0x80

/-- What `ERRINFO` holds for each `STATUS.KIND` (R26). -/
def ErrinfoFits (kind : BitVec 3) (errinfo : Word) : Prop :=
  (kind = 0#3 → errinfo = 0#32) ∧
  (kind = 1#3 → errinfo.extractLsb' 21 11 = 0#11) ∧
  (kind = 2#3 → errinfo.extractLsb' 8 24 = 0#24) ∧
  (kind = 3#3 → errinfo.extractLsb' 8 24 = 0#24) ∧
  (kind = 4#3 → errinfo = 0#32)

/-- What `OUT` may hold: a string is a sequence of scalar values (R10), and an encoded byte has bit 7 = 0
(R73). -/
def OutFits : Payload → Prop
  | .empty => True
  | .byteSeq b bs => ∀ x ∈ b :: bs, x.toNat < 0x80
  | .charSeq c cs => ∀ x ∈ c :: cs, isScalar x = true

/-- The state is one of this hardware, which fixes every parameter of R6 but `IN_CAP`. -/
def State.OfHardware (s : State) : Prop := ∃ n, s.params = { hwParams with inCap := n }

/-- The invariant of the state between transactions. -/
structure StateInv (s : State) : Prop where
  /-- The parameters are those R6 fixes for this hardware. -/
  ofHardware : s.OfHardware
  tablesWf : TablesWf s.tables
  sevenBit : SevenBitSuffixes s.tables
  /-- `CFG[31:2]` reads as zero (R22). -/
  cfgReserved : s.cfg.extractLsb' 2 30 = 0#30
  /-- `REPL[31:21]` reads as zero (R23). -/
  replReserved : s.repl.extractLsb' 21 11 = 0#11
  /-- `REPL.CHAR` is a scalar value (R23). -/
  replScalar : isScalar s.replChar = true
  /-- `STATUS[31:8]` reads as zero (R25). -/
  statusReserved : s.status.extractLsb' 8 24 = 0#24
  /-- `KIND` 5-7 are never written (R25). -/
  kindRange : s.kind.toNat ≤ 4
  /-- `REASON` 3 is never written (R25). -/
  reasonRange : s.reason ≠ 3#2
  /-- `ERR = 1` iff `KIND != 0` (R25). -/
  errIffKind : s.errFlag = true ↔ s.kind ≠ 0#3
  /-- `REASON != 0` iff `KIND = 4` (R25). -/
  reasonIffMalformed : s.reason ≠ 0#2 ↔ s.kind = 4#3
  /-- `ILLEGAL = 1` implies `ERR = 0` (R25). -/
  illegalNoErr : s.illegalFlag = true → s.errFlag = false
  errinfoFits : ErrinfoFits s.kind s.errinfo
  /-- `RESULT` is 0 and `OUT` is `[]` after an error value or an illegal command (R27, R30). -/
  quietOnError : s.errFlag = true ∨ s.illegalFlag = true → s.result = 0#32 ∧ s.out = .empty
  /-- `DONE` is 0 only while no command has completed since reset (R25). -/
  notDone : s.done = false →
    s.status = 0#32 ∧ s.errinfo = 0#32 ∧ s.result = 0#32 ∧ s.out = .empty
  /-- `FSM` is 0 between transactions (R28). -/
  fsmPlain : s.fsm = 0#32
  /-- The length of `OUT` is at most `2*IN_CAP` (R30). -/
  outBound : s.out.length ≤ 2 * s.params.inCap
  outFits : OutFits s.out
  /-- `2*IN_CAP <= 2^LEN_W - 1` (R6). -/
  inCapBound : 2 * s.params.inCap ≤ 2 ^ s.params.lenW - 1
  /-- `IN` is not state between transactions (R20). -/
  inputEmpty : s.port.input = .empty

/-! ### Host duties -/

/-- The payload type of a command's row (R81). -/
inductive PayloadKind where
  | text
  | bytes
  | nothing
  deriving DecidableEq, Repr

/-- The `IN` column of R81. -/
def payloadKind : Instr → PayloadKind
  | .enc => .text
  | .encC => .text
  | .dec => .bytes
  | .decC => .bytes
  | .elen => .text
  | .compat => .text
  | .lkc _ => .nothing
  | .lkb _ => .nothing
  | .lke _ => .nothing
  | .cfgd => .nothing
  | .cfgs => .nothing

/-- A payload has the type of a row (R81). -/
def Payload.hasKind (p : Payload) : PayloadKind → Bool
  | .text => match p.asText with
    | some t => t.all isScalar
    | none => false
  | .bytes => p.asBytes.isSome
  | .nothing => decide (p = .empty)

/-- The host's duties for a transaction (R220, R221, R222, R223): those R251 does not refuse. -/
def Transaction.admissible (inCap : Nat) : Transaction → Bool
  | .reset => true
  | .writeReg i v => decide (i < 8) && (decide (i ≠ 1) || isScalar (v.extractLsb' 0 21))
  | .readReg i => decide (i < 8)
  | .command w p =>
    decide (p.length ≤ inCap) &&
      match decode w with
      | .legal i => p.hasKind (payloadKind i)
      | .illegal _ => true

/-- A run is safe when every transaction the host issues keeps the host's duties: no refusal marks the
state. -/
def SafeRun (s : State) (ts : List Transaction) : Prop := (s.hostRun ts).port.refusal = none

/-! ### What the codec computes, said a second way -/

/-- The string operand a command may take: at most `IN_CAP` scalar values (R81). -/
def TextInput (s : State) (text : List Char21) : Prop :=
  s.port.input = .ofText text ∧ text.length ≤ s.params.inCap ∧ ∀ c ∈ text, isScalar c = true

/-- The byte operand a command may take: at most `IN_CAP` bytes (R81). -/
def ByteInput (s : State) (bytes : List Byte) : Prop :=
  s.port.input = .ofBytes bytes ∧ bytes.length ≤ s.params.inCap

/-- A character has a Code. -/
def Tables.mapped (T : Tables) (c : Char21) : Prop := T.invAt c ≠ none

/-- The bytes of a mapped character, nothing for an unmapped one (R70, R142). -/
def Tables.codeBytes (T : Tables) (c : Char21) : List Byte :=
  match T.invAt c with
  | some (.single b) => [b]
  | some (.escape s) => [0x1B#8, s]
  | none => []

/-- The bytes of a character in non-strict mode: its own code, else the replacement's, else a space
(R142, R144, R145). -/
def Tables.lenientBytes (T : Tables) (repl c : Char21) : List Byte :=
  match T.invAt c with
  | some (.single b) => [b]
  | some (.escape s) => [0x1B#8, s]
  | none =>
    match T.invAt repl with
    | some (.single b) => [b]
    | some (.escape s) => [0x1B#8, s]
    | none => [0x20#8]

/-- The length `encoded_len` counts for a mapped character (R200). -/
def Tables.codeSize (T : Tables) (c : Char21) : Nat :=
  match T.invAt c with
  | some (.single _) => 1
  | some (.escape _) => 2
  | none => 0

/-- The source's "single left-to-right scan": one byte for a plain byte, two for an escape pair, one for
a trailing escape (R32, R163, R164, R165). -/
def scan (T : Tables) (strict : Bool) (repl : Char21) : List Byte → Result (List Char21)
  | [] => .ok []
  | [b] =>
    if b = 0x1B#8 then (if strict then .err (.malformedData .escAtEnd) else .ok [repl])
    else if 0x80 ≤ b.toNat then .ok [repl]
    else match T.baseAt b with
      | some c => .ok [c]
      | none => if strict then .err (.invalidByte b) else .ok [repl]
  | b :: x :: rest =>
    if b = 0x1B#8 then
      match T.extAt x, scan T strict repl rest with
      | some c, .ok t => .ok (c :: t)
      | some _, .err e => .err e
      | none, .ok t => if strict then .err (.invalidEscapeSequence x) else .ok (repl :: t)
      | none, .err e => if strict then .err (.invalidEscapeSequence x) else .err e
    else if 0x80 ≤ b.toNat then
      match scan T strict repl (x :: rest) with
      | .ok t => .ok (repl :: t)
      | .err e => .err e
    else
      match T.baseAt b, scan T strict repl (x :: rest) with
      | some c, .ok t => .ok (c :: t)
      | some _, .err e => .err e
      | none, .ok t => if strict then .err (.invalidByte b) else .ok (repl :: t)
      | none, .err e => if strict then .err (.invalidByte b) else .err e

/-- A Code the tables admit, by the ranges of R70. Where a table has absent slots other than 0x1B, the byte
of such a slot is in R70's range for `Single` and R71 lists it as ill-formed; DESIGN CHOICE: R70's range is
followed (assumption log 23). The default tables have no such slot. -/
def Code.admitted (T : Tables) : Code → Prop
  | .single b => b.toNat ≤ 0x7F ∧ b ≠ 0x1B#8
  | .escape s => T.extAt s ≠ none

/-- A well-formed GSM-7 byte sequence: a concatenation of Code encodings (R70, R71). -/
def WellFormedBytes (T : Tables) (bytes : List Byte) : Prop :=
  ∃ ks : List Code, (∀ k ∈ ks, k.admitted T) ∧
    bytes = ks.flatMap fun
      | .single b => [b]
      | .escape s => [0x1B#8, s]

/-- The response of a command that reports `e`, with the `STATUS` words of R244's table and the
`ERRINFO` payloads of R26; nothing else changes (R244). -/
def State.errorResponse (s : State) : CodecError → State
  | .unsupportedCharacter c _ =>
    { s with status := 0x07#32, errinfo := c.setWidth 32, result := 0#32, out := .empty, fsm := 0#32 }
  | .invalidEscapeSequence x =>
    { s with status := 0x0B#32, errinfo := x.setWidth 32, result := 0#32, out := .empty, fsm := 0#32 }
  | .invalidByte b =>
    { s with status := 0x0F#32, errinfo := b.setWidth 32, result := 0#32, out := .empty, fsm := 0#32 }
  | .malformedData .lengthExceeded =>
    { s with status := 0x53#32, errinfo := 0#32, result := 0#32, out := .empty, fsm := 0#32 }
  | .malformedData .escAtEnd =>
    { s with status := 0x93#32, errinfo := 0#32, result := 0#32, out := .empty, fsm := 0#32 }

/-- The response of a command that succeeds with `out` and `result`, `STATUS = 0x01`; nothing else
changes (R148, R173, R202, R203, R109-R111). -/
def State.okResponse (s : State) (out : Payload) (result : Word) : State :=
  { s with status := 0x01#32, errinfo := 0#32, result := result, out := out, fsm := 0#32 }

end Sys2Proof.Machine
end

