-- ==== Sys2Proof/Certificates/Slice0/Obligations.lean ====
section
/-! DEFINITION. The statements for the provers. Each formalises rules of spec/, named in its docstring.
A command's statement is an equation for its next state, so that it says the command completes, what it
writes, and (the record update naming every written field) what it leaves unchanged. -/

open Sys2Proof Sys2Proof.Machine

/-! ### Reset and the host transactions -/

/-- R34, R270: the state after reset, component by component. The table contents are the parameters
(assumption logs 6, 7, 8) and `DEFAULT_REPL` is 0xFFFD (log 9). -/
def Obligations.ResetValues : Prop :=
  State.reset.cfg = 0x00000000#32 ∧ State.reset.repl = 0x0000FFFD#32 ∧
  State.reset.maxlen = 0x00000000#32 ∧ State.reset.status = 0x00000000#32 ∧
  State.reset.errinfo = 0x00000000#32 ∧ State.reset.result = 0x00000000#32 ∧
  State.reset.fsm = 0x00000000#32 ∧ State.reset.readReg 7 = .ok 0#32 ∧
  State.reset.out = .empty ∧ State.reset.tables.base = baseTable ∧
  State.reset.tables.ext = extTable ∧ State.reset.tables.inv = buildInv baseTable extTable

/-- R270: `RESET` puts every component at its reset value, from every state of a block with any
parameters; ResetValues says what those of this hardware give. The host's further transactions stay to be
issued (assumption log 14). -/
def Obligations.ResetTransactionRestoresEveryComponent : Prop :=
  ∀ (s : State) (rest : List Transaction),
    s.port.refusal = none → s.port.pending = .reset :: rest →
    step s = .next
      { cfg := 0#32, repl := s.params.codec.defaultRepl.setWidth 32, maxlen := 0#32, status := 0#32,
        errinfo := 0#32, result := 0#32, fsm := 0#32, out := .empty,
        tables := { base := baseOf s.params, ext := s.params.extTable,
                    inv := buildInv (baseOf s.params) s.params.extTable },
        params := s.params,
        port := { pending := rest, input := .empty, response := .nothing, refusal := none } }

/-- R221: what `WRITE_REG(i, v)` does for every index and value, refusals included. That `MAXLEN` keeps all
32 bits is this hardware's `LEN_W` (R6, R24). -/
def Obligations.WriteRegisterEffect : Prop :=
  ∀ (s : State) (i : Nat) (v : Word) (rest : List Transaction),
    s.port.refusal = none → s.port.pending = .writeReg i v :: rest →
    let port : Port := { pending := rest, input := .empty, response := .nothing, refusal := none }
    (i = 0 → step s = .next { s with cfg := v &&& 0x3#32, port := port }) ∧
    (i = 1 → isScalar (v.extractLsb' 0 21) = true →
      step s = .next { s with repl := v &&& 0x1FFFFF#32, port := port }) ∧
    (i = 1 → isScalar (v.extractLsb' 0 21) = false → step s = .refused .replNotScalar) ∧
    (i = 2 → s.OfHardware → step s = .next { s with maxlen := v, port := port }) ∧
    (3 ≤ i ∧ i ≤ 7 → step s = .next { s with port := port }) ∧
    (8 ≤ i → step s = .refused .registerIndex)

/-- R222, R56: `READ_REG(i)` returns the register, 0 for `x[7]`, and changes no state of the block. -/
def Obligations.ReadRegisterReturns : Prop :=
  ∀ (s : State) (i : Nat) (rest : List Transaction),
    s.port.refusal = none → s.port.pending = .readReg i :: rest →
    let port (v : Word) : Port :=
      { pending := rest, input := .empty, response := .value v, refusal := none }
    (i = 0 → step s = .next { s with port := port s.cfg }) ∧
    (i = 1 → step s = .next { s with port := port s.repl }) ∧
    (i = 2 → step s = .next { s with port := port s.maxlen }) ∧
    (i = 3 → step s = .next { s with port := port s.status }) ∧
    (i = 4 → step s = .next { s with port := port s.errinfo }) ∧
    (i = 5 → step s = .next { s with port := port s.result }) ∧
    (i = 6 → step s = .next { s with port := port s.fsm }) ∧
    (i = 7 → step s = .next { s with port := port 0#32 }) ∧
    (8 ≤ i → step s = .refused .registerIndex)

/-- R8, R223: a step performs the pending `COMMAND`: the decoded instruction runs with the payload as
`IN`, and `(STATUS, ERRINFO, RESULT, OUT)` is returned. -/
def Obligations.StepRunsTheDecodedCommand : Prop :=
  ∀ (s : State) (w : Word) (p : Payload) (rest : List Transaction) (i : Instr),
    s.port.refusal = none → s.port.pending = .command w p :: rest → decode w = .legal i →
    (∀ t, exec i { s with port := { s.port with pending := rest, input := p } } = .next t →
      step s = .next { t with port :=
        { t.port with input := .empty, response := .command t.status t.errinfo t.result t.out } }) ∧
    (∀ r, exec i { s with port := { s.port with pending := rest, input := p } } = .refused r →
      step s = .refused r)

/-- The placing of a word for the host: the very next step runs it (assumption log 1). -/
def Obligations.FetchWordRunsNext : Prop :=
  ∀ (s : State) (w : Nat) (i : Instr),
    s.port.refusal = none → decodeTableWord 32 w = some i →
    ∀ t, exec i { s with port := { s.port with input := .empty } } = .next t →
      step (s.withFetchWord 32 w) = .next { t with port :=
        { t.port with input := .empty, response := .command t.status t.errinfo t.result t.out } }

/-- The model's choice (assumption log 1): with no transaction to perform, the block stays as it is. -/
def Obligations.IdleBlockStays : Prop :=
  ∀ s : State, s.port.refusal = none → s.port.pending = [] → step s = .next s

/-- R226: the illegal-command verdict, for every illegal word whose payload is within `IN_CAP`; the
configuration registers are unchanged. -/
def Obligations.IllegalWordVerdict : Prop :=
  ∀ (s : State) (w : Word) (p : Payload) (rest : List Transaction) (g : IllegalGround),
    s.port.refusal = none → s.port.pending = .command w p :: rest → decode w = .illegal g →
    p.length ≤ s.params.inCap →
    step s = .next
      { s with
        status := 0x21#32, errinfo := 0#32, result := 0#32, out := .empty, fsm := 0#32
        port := { pending := rest, input := .empty,
                  response := .command 0x21#32 0#32 0#32 .empty, refusal := none } }

/-- R223: every `COMMAND` that is not refused sets `STATUS.DONE`, leaves `FSM` at 0 and returns what it
left in `STATUS`, `ERRINFO`, `RESULT`, `OUT`; its payload is gone (R20). -/
def Obligations.CommandRespondsWithItsResult : Prop :=
  ∀ (s t : State) (w : Word) (p : Payload) (rest : List Transaction),
    s.port.pending = .command w p :: rest → step s = .next t →
    t.done = true ∧ t.fsm = 0#32 ∧
    t.port = { pending := rest, input := .empty,
               response := .command t.status t.errinfo t.result t.out, refusal := none }

/-! ### Encodings -/

/-- Command words written out from the spec decode to their instructions (R74-R76; the worked words of
40_tables.md and 95_test_vectors.md). -/
def Obligations.WrittenOutWordsDecode : Prop :=
  decode 0x00000001#32 = .legal .enc ∧ decode 0x00000011#32 = .legal .encC ∧
  decode 0x00000002#32 = .legal .dec ∧ decode 0x00000012#32 = .legal .decC ∧
  decode 0x00000003#32 = .legal .elen ∧ decode 0x00000004#32 = .legal .compat ∧
  decode 0x00007B05#32 = .legal (.lkc 0x7B#21) ∧ decode 0x10FFFF05#32 = .legal (.lkc 0x10FFFF#21) ∧
  decode 0x00004106#32 = .legal (.lkb 0x41#8) ∧ decode 0x00006507#32 = .legal (.lke 0x65#8) ∧
  decode 0x00000008#32 = .legal .cfgd ∧ decode 0x00000009#32 = .legal .cfgs

/-- R78: a word is illegal exactly when one of the seven items holds. -/
def Obligations.IllegalExactlyOnTheListedGrounds : Prop :=
  ∀ w : Word,
    (∃ g, decode w = .illegal g) ↔
      ((opOf w).toNat = 0x0 ∨ 0xA ≤ (opOf w).toNat) ∨
      w.extractLsb' 5 3 ≠ 0#3 ∨
      w.extractLsb' 29 3 ≠ 0#3 ∨
      (ucOf w = true ∧ (opOf w).toNat ≠ 0x1 ∧ (opOf w).toNat ≠ 0x2) ∨
      (argOf w ≠ 0#21 ∧ (opOf w).toNat ≠ 0x5 ∧ (opOf w).toNat ≠ 0x6 ∧ (opOf w).toNat ≠ 0x7) ∨
      (((opOf w).toNat = 0x6 ∨ (opOf w).toNat = 0x7) ∧ (argOf w).extractLsb' 8 13 ≠ 0#13) ∨
      ((opOf w).toNat = 0x5 ∧ isScalar (argOf w) = false)

/-- R76: the command map. A word decodes to the instruction of a row exactly when the row admits it, by
mask, match and (for `LKC`) the scalar-value constraint; so no two rows admit one word. -/
def Obligations.DecodeFollowsTheCommandMap : Prop :=
  ∀ (w : Word) (k : Nat),
    (∃ i, decode w = .legal i ∧ rowIndex i = k) ↔
    (∃ r, commandMap[k]? = some r ∧ r.admits w = true)

/-- Decode of encode is the instruction, for every instruction and every operand the encoding admits
(R74-R76). -/
def Obligations.DecodeOfEncode : Prop :=
  ∀ i : Instr, i.wellFormed = true → decode (encode i) = .legal i

/-- A legal word is the encoding of what it decodes to: no bit of a legal word is dropped, and its
operand is well-formed (R74-R78). -/
def Obligations.EncodeOfDecode : Prop :=
  ∀ (w : Word) (i : Instr), decode w = .legal i → encode i = w ∧ i.wellFormed = true

/-- R84: "Assembly followed by disassembly is the identity on legal words": the line of a legal word's
printed form assembles to the `COMMAND` of that word. The lexical conventions are the model's
(assumption log 15). -/
def Obligations.PrintedLegalWordsAssembleBack : Prop :=
  ∀ (w : Word) (i : Instr), decode w = .legal i →
    assembleLine (printLine w) = some [.command w .empty]

/-! ### Encoder: ENC and ENC.C -/

/-- R148, with R142, R144, R145: `ENC` completes for every string, encoding each character by its own
code, else by the code of `DEFAULT_REPL` = U+FFFD, else as a space, whatever the configuration
registers hold; it writes no other state. -/
def Obligations.EncCompletes : Prop :=
  ∀ (s : State) (text : List Char21), s.OfHardware → TextInput s text →
    let out := text.flatMap (s.tables.lenientBytes 0xFFFD#21)
    exec .enc s = .next
      { s with status := 0x01#32, errinfo := 0#32, result := BitVec.ofNat 32 out.length,
               out := .ofBytes out, fsm := 0#32 }

/-- R149, R144, R145: `ENC.C` in non-strict mode, within the length limit. -/
def Obligations.EncCLenientCompletes : Prop :=
  ∀ (s : State) (text : List Char21), s.OfHardware → TextInput s text → s.cfg.getLsbD 0 = false →
    (s.maxlen = 0#32 ∨ text.length ≤ s.maxlen.toNat) →
    let out := text.flatMap (s.tables.lenientBytes (s.repl.extractLsb' 0 21))
    exec .encC s = .next
      { s with status := 0x01#32, errinfo := 0#32, result := BitVec.ofNat 32 out.length,
               out := .ofBytes out, fsm := 0#32 }

/-- R149, R142: `ENC.C` of mapped characters, in either mode, within the length limit. -/
def Obligations.EncCMappedCompletes : Prop :=
  ∀ (s : State) (text : List Char21), s.OfHardware → TextInput s text → (∀ c ∈ text, s.tables.mapped c) →
    (s.maxlen = 0#32 ∨ text.length ≤ s.maxlen.toNat) →
    let out := text.flatMap s.tables.codeBytes
    exec .encC s = .next
      { s with status := 0x01#32, errinfo := 0#32, result := BitVec.ofNat 32 out.length,
               out := .ofBytes out, fsm := 0#32 }

/-- R143, R147, R149: `ENC.C` in strict mode reports the first unmapped character, and returns no byte
of what came before it. -/
def Obligations.EncCStrictReportsFirstUnmapped : Prop :=
  ∀ (s : State) (before after : List Char21) (c : Char21),
    s.OfHardware → TextInput s (before ++ c :: after) → s.cfg.getLsbD 0 = true →
    (s.maxlen = 0#32 ∨ (before ++ c :: after).length ≤ s.maxlen.toNat) →
    (∀ x ∈ before, s.tables.mapped x) → ¬ s.tables.mapped c →
    exec .encC s = .next
      { s with status := 0x07#32, errinfo := c.setWidth 32, result := 0#32, out := .empty, fsm := 0#32 }

/-- R141: the length check comes first, in either mode and whatever the characters are; a length equal to
the limit, and any length where the limit is 0, passes it. -/
def Obligations.EncCLengthLimit : Prop :=
  ∀ (s : State) (text : List Char21), s.OfHardware → TextInput s text →
    (s.maxlen ≠ 0#32 → s.maxlen.toNat < text.length →
      exec .encC s = .next
        { s with status := 0x53#32, errinfo := 0#32, result := 0#32, out := .empty, fsm := 0#32 }) ∧
    (s.maxlen = 0#32 ∨ text.length ≤ s.maxlen.toNat →
      ∃ t, exec .encC s = .next t ∧ t.status ≠ 0x53#32)

/-- R146, R71: an encode output has one or two bytes per character, every byte below 0x80, and is a
well-formed GSM-7 byte sequence; for every table contents that meet R107 with seven-bit suffixes. For
tables with an absent slot other than 0x1B, "well-formed" is the model's choice of R70's range
(assumption log 23). -/
def Obligations.EncodeOutputShape : Prop :=
  ∀ (T : Tables) (cfg : CodecCfg) (text : List Char21) (out : List Byte),
    TablesWf T → SevenBitSuffixes T → encodeText hw T text cfg = .ok out →
    text.length ≤ out.length ∧ out.length ≤ 2 * text.length ∧
    (∀ b ∈ out, b.toNat < 0x80) ∧ WellFormedBytes T out

/-- R145, R172: in non-strict mode without a length limit neither direction fails. -/
def Obligations.NonStrictModeIsTotal : Prop :=
  ∀ (T : Tables) (cfg : CodecCfg) (text : List Char21) (bytes : List Byte),
    cfg.strict = false → cfg.max = 0 →
    (∃ out, encodeText hw T text cfg = .ok out) ∧ (∃ t, decodeBytes hw T bytes cfg = .ok t)

/-! ### Decoder: DEC and DEC.C -/

/-- R163, R164: the transition function, row by row (T1 to T6), and the end of input (E1, E2), in both
modes. -/
def Obligations.FsmTransitions : Prop :=
  ∀ (T : Tables) (cfg : CodecCfg) (b : Byte),
    (b = 0x1B#8 → fsmStep hw T false cfg .plain b = .ok (.escapePending, [])) ∧
    (∀ c, b.toNat ≤ 0x7F → b ≠ 0x1B#8 → T.baseAt b = some c →
      fsmStep hw T false cfg .plain b = .ok (.plain, [c])) ∧
    (b.toNat ≤ 0x7F → b ≠ 0x1B#8 → T.baseAt b = none →
      fsmStep hw T false cfg .plain b =
        if cfg.strict then .err (.invalidByte b) else .ok (.plain, [cfg.repl])) ∧
    (0x80 ≤ b.toNat → fsmStep hw T false cfg .plain b = .ok (.plain, [cfg.repl])) ∧
    (∀ c, T.extAt b = some c → fsmStep hw T false cfg .escapePending b = .ok (.plain, [c])) ∧
    (T.extAt b = none → fsmStep hw T false cfg .escapePending b =
      if cfg.strict then .err (.invalidEscapeSequence b) else .ok (.plain, [cfg.repl])) ∧
    fsmFinish cfg .plain = .ok (.plain, []) ∧
    fsmFinish cfg .escapePending =
      if cfg.strict then .err (.malformedData .escAtEnd) else .ok (.plain, [cfg.repl])

/-- R165: the fold of the state machine is equivalent to the source's scan, which advances one byte for
a plain byte and two for an escape pair. -/
def Obligations.StateMachineEqualsScan : Prop :=
  ∀ (T : Tables) (cfg : CodecCfg) (bytes : List Byte),
    runPass hw T bytes cfg = scan T cfg.strict cfg.repl bytes

/-- R173: `DEC` completes for every byte sequence, with the text of the non-strict scan whose
replacement is U+FFFD, whatever the configuration registers hold. -/
def Obligations.DecCompletes : Prop :=
  ∀ (s : State) (bytes : List Byte), s.OfHardware → ByteInput s bytes →
    ∃ text, scan s.tables false 0xFFFD#21 bytes = .ok text ∧
      exec .dec s = .next
        { s with status := 0x01#32, errinfo := 0#32, result := BitVec.ofNat 32 text.length,
                 out := .ofText text, fsm := 0#32 }

/-- R174: `DEC.C` within the length limit leaves the text of the scan, or the error the scan meets
first; `CFG.VALIDATE` changes nothing (R170, R279). -/
def Obligations.DecCAnswersTheScan : Prop :=
  ∀ (s : State) (bytes : List Byte), s.OfHardware → ByteInput s bytes →
    (s.maxlen = 0#32 ∨ bytes.length ≤ s.maxlen.toNat) →
    exec .decC s = .next
      (match scan s.tables (s.cfg.getLsbD 0) (s.repl.extractLsb' 0 21) bytes with
       | .ok text => s.okResponse (.ofText text) (BitVec.ofNat 32 text.length)
       | .err e => s.errorResponse e)

/-- R161: the length check comes first, in either mode and whatever the bytes are; a length equal to the
limit, and any length where the limit is 0, passes it. -/
def Obligations.DecCLengthLimit : Prop :=
  ∀ (s : State) (bytes : List Byte), s.OfHardware → ByteInput s bytes →
    (s.maxlen ≠ 0#32 → s.maxlen.toNat < bytes.length →
      exec .decC s = .next
        { s with status := 0x53#32, errinfo := 0#32, result := 0#32, out := .empty, fsm := 0#32 }) ∧
    (s.maxlen = 0#32 ∨ bytes.length ≤ s.maxlen.toNat →
      ∃ t, exec .decC s = .next t ∧ t.status ≠ 0x53#32)

/-- R170: with this hardware's parameters the validation pass changes no result. -/
def Obligations.ValidationChangesNothing : Prop :=
  ∀ (T : Tables) (bytes : List Byte) (cfg : CodecCfg),
    decodeBytes hw T bytes { cfg with validate := true } =
      decodeBytes hw T bytes { cfg with validate := false }

/-- R166: bytes of 0x80 and above decode to the replacement character, in strict mode too. -/
def Obligations.HighBytesNeverFail : Prop :=
  ∀ (T : Tables) (cfg : CodecCfg) (bytes : List Byte), (∀ b ∈ bytes, 0x80 ≤ b.toNat) →
    runPass hw T bytes cfg = .ok (List.replicate bytes.length cfg.repl)

/-- R167: with the default tables `InvalidByte` is never raised. -/
def Obligations.InvalidByteUnreachableWithDefaultTables : Prop :=
  ∀ (cfg : CodecCfg) (bytes : List Byte) (b : Byte),
    decodeBytes hw hwTables bytes cfg ≠ .err (.invalidByte b)

/-- R172: each output character consumes one or two bytes. -/
def Obligations.DecodeOutputShape : Prop :=
  ∀ (T : Tables) (cfg : CodecCfg) (bytes : List Byte) (text : List Char21),
    decodeBytes hw T bytes cfg = .ok text →
    (bytes.length + 1) / 2 ≤ text.length ∧ text.length ≤ bytes.length

/-- R171, R274: a pass over bytes that end at a code boundary carries nothing into the next: decoding
two parts one after the other is decoding the whole, where the first part alone is well-formed. -/
def Obligations.SplitAtCodeBoundary : Prop :=
  ∀ (T : Tables) (cfg : CodecCfg) (front back : List Byte) (text : List Char21),
    WellFormedBytes T front → runPass hw T front cfg = .ok text →
    runPass hw T (front ++ back) cfg =
      match runPass hw T back cfg with
      | .ok rest => .ok (text ++ rest)
      | .err e => .err e

/-- R150: the round trip of one character, for any two configurations whose length limits admit the
input. -/
def Obligations.RoundTripOfCharacter : Prop :=
  ∀ (T : Tables) (cfg cfg' : CodecCfg) (c : Char21), TablesWf T → T.mapped c →
    (cfg.max = 0 ∨ 1 ≤ cfg.max) → (cfg'.max = 0 ∨ (T.codeBytes c).length ≤ cfg'.max) →
    encodeText hw T [c] cfg = .ok (T.codeBytes c) ∧
    decodeBytes hw T (T.codeBytes c) cfg' = .ok [c]

/-- The round trip of a whole text of mapped characters (from R150, R142, R163). -/
def Obligations.RoundTripOfText : Prop :=
  ∀ (T : Tables) (cfg cfg' : CodecCfg) (text : List Char21) (out : List Byte), TablesWf T →
    (∀ c ∈ text, T.mapped c) → encodeText hw T text cfg = .ok out →
    (cfg'.max = 0 ∨ out.length ≤ cfg'.max) →
    decodeBytes hw T out cfg' = .ok text

/-! ### Measurement: ELEN and COMPAT -/

/-- R202, R200: `ELEN` of mapped characters leaves their encoded length, one for a `Single` and two for
an `Escape`, whatever the configuration registers hold. -/
def Obligations.ElenCompletes : Prop :=
  ∀ (s : State) (text : List Char21), s.OfHardware → TextInput s text → (∀ c ∈ text, s.tables.mapped c) →
    exec .elen s = .next
      { s with status := 0x01#32, errinfo := 0#32,
               result := BitVec.ofNat 32 (text.map s.tables.codeSize).sum,
               out := .empty, fsm := 0#32 }

/-- R202, R200: `ELEN` reports the first unmapped character, whatever `CFG.STRICT` holds. -/
def Obligations.ElenReportsFirstUnmapped : Prop :=
  ∀ (s : State) (before after : List Char21) (c : Char21),
    TextInput s (before ++ c :: after) →
    (∀ x ∈ before, s.tables.mapped x) → ¬ s.tables.mapped c →
    exec .elen s = .next
      { s with status := 0x07#32, errinfo := c.setWidth 32, result := 0#32, out := .empty, fsm := 0#32 }

/-- R203, R201: `COMPAT` leaves 1 when every character is mapped and 0 otherwise; neither is an error. -/
def Obligations.CompatCompletes : Prop :=
  ∀ (s : State) (text : List Char21), TextInput s text →
    ((∀ c ∈ text, s.tables.mapped c) → exec .compat s = .next
      { s with status := 0x01#32, errinfo := 0#32, result := 1#32, out := .empty, fsm := 0#32 }) ∧
    ((∃ c ∈ text, ¬ s.tables.mapped c) → exec .compat s = .next
      { s with status := 0x01#32, errinfo := 0#32, result := 0#32, out := .empty, fsm := 0#32 })

/-- R200: `encoded_len` is the length of what `encode` gives, for every configuration whose length limit
admits the text, and it fails exactly when strict encode meets an unmapped character. -/
def Obligations.EncodedLenIsLengthOfEncode : Prop :=
  ∀ (T : Tables) (cfg : CodecCfg) (text : List Char21),
    (cfg.max = 0 ∨ text.length ≤ cfg.max) →
    (∀ n, encodedLen T text = .ok n →
      ∃ out, encodeText hw T text cfg = .ok out ∧ out.length = n ∧
        text.length ≤ n ∧ n ≤ 2 * text.length) ∧
    (∀ e, encodedLen T text = .err e →
      encodeText hw T text { cfg with strict := true } = .err e)

/-! ### Lookups: LKC, LKB, LKE -/

/-- R109: `LKC` reports a character's Code, and absence as 0. That it does so for an operand that is no
scalar value as well is the model's choice (assumption log 18): the decoder gives no such instruction. -/
def Obligations.LkcCompletes : Prop :=
  ∀ (s : State) (c : Char21), s.port.input = .empty →
    exec (.lkc c) s = .next
      { s with
        status := 0x01#32, errinfo := 0#32
        result := (match s.tables.invAt c with
          | some (.single b) => 0x100#32 ||| b.setWidth 32
          | some (.escape x) => 0x300#32 ||| x.setWidth 32
          | none => 0#32)
        out := .empty, fsm := 0#32 }

/-- R110: `LKB` reports the base-table character of a byte, and 0 for an empty slot and for a byte of
0x80 or above. -/
def Obligations.LkbCompletes : Prop :=
  ∀ (s : State) (b : Byte), s.OfHardware → s.port.input = .empty →
    (∀ c, b.toNat ≤ 0x7F → s.tables.baseAt b = some c → exec (.lkb b) s = .next
      { s with status := 0x01#32, errinfo := 0#32, result := 0x200000#32 ||| c.setWidth 32,
               out := .empty, fsm := 0#32 }) ∧
    (0x80 ≤ b.toNat ∨ s.tables.baseAt b = none → exec (.lkb b) s = .next
      { s with status := 0x01#32, errinfo := 0#32, result := 0#32, out := .empty, fsm := 0#32 })

/-- R111: `LKE` reports the extension-table character of a suffix, and 0 for a byte that is no key. -/
def Obligations.LkeCompletes : Prop :=
  ∀ (s : State) (x : Byte), s.port.input = .empty →
    (∀ c, s.tables.extAt x = some c → exec (.lke x) s = .next
      { s with status := 0x01#32, errinfo := 0#32, result := 0x200000#32 ||| c.setWidth 32,
               out := .empty, fsm := 0#32 }) ∧
    (s.tables.extAt x = none → exec (.lke x) s = .next
      { s with status := 0x01#32, errinfo := 0#32, result := 0#32, out := .empty, fsm := 0#32 })

/-! ### Tables -/

/-- R105, R106: what the index built from any two tables answers: a character of the base table has its
lowest slot, any other the first suffix that maps to it, and the rest nothing. -/
def Obligations.InverseIndexPrefersTheBaseTable : Prop :=
  ∀ (base : List (Option Char21)) (ext : List (Byte × Char21)) (c : Char21),
    (∀ n, base[n]? = some (some c) → (∀ k < n, base[k]? ≠ some (some c)) →
      (buildInv base ext).lookup c = some (.single (BitVec.ofNat 8 n))) ∧
    (∀ before after s, some c ∉ base → ext = before ++ (s, c) :: after → (∀ e ∈ before, e.2 ≠ c) →
      (buildInv base ext).lookup c = some (.escape s)) ∧
    (some c ∉ base → (∀ e ∈ ext, e.2 ≠ c) → (buildInv base ext).lookup c = none)

/-- R107 (e), (f): with tables that meet R107 every slot and every suffix round-trips through the
inverse index, and nothing else is in it. -/
def Obligations.TablesRoundTripThroughTheIndex : Prop :=
  ∀ T : Tables, TablesWf T →
    (∀ b c, b.toNat ≤ 0x7F → T.baseAt b = some c → T.invAt c = some (.single b)) ∧
    (∀ x c, T.extAt x = some c → T.invAt c = some (.escape x)) ∧
    (∀ c b, T.invAt c = some (.single b) → b.toNat ≤ 0x7F ∧ b ≠ 0x1B#8 ∧ T.baseAt b = some c) ∧
    (∀ c x, T.invAt c = some (.escape x) → x ≠ 0x1B#8 ∧ T.extAt x = some c)

/-- R102, R107: the default tables have 127 present slots, all but 0x1B, ten suffixes, and 137 entries
in the inverse index. The contents are from general knowledge (assumption logs 6, 7, 8). -/
def Obligations.DefaultTableSizes : Prop :=
  hwTables.base.length = 128 ∧ (hwTables.base.filterMap id).length = 127 ∧
  hwTables.baseAt 0x1B#8 = none ∧ hwTables.ext.length = 10 ∧ hwTables.inv.length = 137

/-! ### Presets: CFGD and CFGS -/

/-- R224: `CFGD` loads the default configuration. -/
def Obligations.CfgdCompletes : Prop :=
  ∀ s : State, s.OfHardware → s.port.input = .empty →
    exec .cfgd s = .next
      { s with cfg := 0#32, repl := 0xFFFD#32, maxlen := 0#32, status := 0x01#32, errinfo := 0#32,
               result := 0#32, out := .empty, fsm := 0#32 }

/-- R225: `CFGS` loads the `strict()` configuration. -/
def Obligations.CfgsCompletes : Prop :=
  ∀ s : State, s.OfHardware → s.port.input = .empty →
    exec .cfgs s = .next
      { s with cfg := 1#32, repl := 0xFFFD#32, maxlen := 0#32, status := 0x01#32, errinfo := 0#32,
               result := 0#32, out := .empty, fsm := 0#32 }

/-- R224, R273: with the registers at the default configuration `ENC.C` behaves as `ENC` and `DEC.C` as
`DEC`. -/
def Obligations.DefaultRegistersMakeConfiguredCommandsPlain : Prop :=
  ∀ s : State, s.OfHardware → s.cfg = 0#32 → s.repl = 0xFFFD#32 → s.maxlen = 0#32 →
    exec .encC s = exec .enc s ∧ exec .decC s = exec .dec s

/-- R227: `CFGD` and `CFGS` land in the minimal variant's subset. -/
def Obligations.PresetsAreMinimal : Prop :=
  ∀ (s t : State), exec .cfgd s = .next t ∨ exec .cfgs s = .next t → t.registerCfg.minimal

/-! ### Refusals -/

/-- R251, R282: an unmarked block refuses its next transaction exactly when the host breaks a duty of
R220 with it; every other transaction takes a step. -/
def Obligations.RefusesExactlyInadmissible : Prop :=
  ∀ (s : State) (x : Transaction) (rest : List Transaction),
    s.port.refusal = none → s.port.pending = x :: rest →
    ((∃ r, step s = .refused r) ↔ x.admissible s.params.inCap = false) ∧
    ((∃ t, step s = .next t) ↔ x.admissible s.params.inCap = true)

/-- R251: which refusal each command gives: F1 before all others, then F4 and F2 for a string row, F4
for a byte row, F3 for a row whose payload is `[]` (their order is the model's: assumption log 12). -/
def Obligations.CommandRefusalGrounds : Prop :=
  ∀ (i : Instr) (s : State),
    (s.params.inCap < s.port.input.length → exec i s = .refused .payloadTooLong) ∧
    (s.port.input.length ≤ s.params.inCap →
      (payloadKind i = .text → s.port.input.asText = none → exec i s = .refused .payloadType) ∧
      (payloadKind i = .text → ∀ t, s.port.input.asText = some t → (∃ c ∈ t, isScalar c = false) →
        exec i s = .refused .payloadNotScalar) ∧
      (payloadKind i = .bytes → s.port.input.asBytes = none → exec i s = .refused .payloadType) ∧
      (payloadKind i = .nothing → s.port.input ≠ .empty → exec i s = .refused .payloadNotEmpty))

/-- R251, R270: a refused transaction leaves its mark and changes nothing else, and a marked state gives
no further transaction a meaning and keeps its mark, under `RESET` too (assumption log 4). -/
def Obligations.RefusalMarkPersists : Prop :=
  ∀ (s : State) (ts : List Transaction),
    (∀ x r, s.port.refusal = none → perform x s = .refused r →
      s.issue x = { s with port := { s.port with refusal := some r } }) ∧
    (∀ r, s.port.refusal = some r → step s = .refused r ∧ s.hostRun ts = s)

/-! ### The machine as a whole -/

/-- R20-R30, R107: the invariant holds after reset. -/
def Obligations.InvariantAtReset : Prop := StateInv State.reset

/-- R22-R30, R107: every step keeps the invariant: reserved bits zero, `REPL` a scalar value, the
`STATUS` and `ERRINFO` relations, `FSM` plain, the bounds of `OUT`, the table invariants. -/
def Obligations.EveryStepKeepsTheInvariant : Prop :=
  ∀ s t : State, StateInv s → step s = .next t → StateInv t

/-- R31: no transaction writes the tables; `RESET` puts the parameter tables. None changes the
parameters (R6). -/
def Obligations.TablesAreNeverWritten : Prop :=
  ∀ s t : State, step s = .next t → t.params = s.params ∧
    (t.tables = s.tables ∨
      (∃ rest, s.port.pending = .reset :: rest) ∧ t.tables = Tables.ofParameters s.params)

/-- R17, R38, R244: the configuration registers change only under `RESET`, a `WRITE_REG` to them,
`CFGD` and `CFGS`. -/
def Obligations.ConfigurationChangesOnlyByItsWriters : Prop :=
  ∀ s t : State, step s = .next t →
    (t.cfg = s.cfg ∧ t.repl = s.repl ∧ t.maxlen = s.maxlen) ∨
    (∃ rest, s.port.pending = .reset :: rest) ∨
    (∃ i v rest, i < 3 ∧ s.port.pending = .writeReg i v :: rest) ∨
    (∃ w p rest, s.port.pending = .command w p :: rest ∧
      (decode w = .legal .cfgd ∨ decode w = .legal .cfgs))

/-- R33: no command reads a flag, nor any other output-side state: two states that agree on the
configuration registers, the tables and the port have the same outcome. -/
def Obligations.CommandsReadNoOutputState : Prop :=
  ∀ (i : Instr) (s : State) (status errinfo result fsm : Word) (out : Payload),
    exec i { s with status := status, errinfo := errinfo, result := result, fsm := fsm, out := out } =
      exec i s

/-- R276, R112, R200: only `ENC.C` and `DEC.C` read the configuration registers: the others leave the
same response whatever the registers hold. -/
def Obligations.OnlyConfiguredCommandsReadTheRegisters : Prop :=
  ∀ (i : Instr) (s t : State) (cfg repl maxlen : Word),
    i ≠ .encC → i ≠ .decC → exec i s = .next t →
    ∃ t', exec i { s with cfg := cfg, repl := repl, maxlen := maxlen } = .next t' ∧
      t'.status = t.status ∧ t'.errinfo = t.errinfo ∧ t'.result = t.result ∧ t'.out = t.out ∧
      t'.fsm = t.fsm

/-- R56: issuing the same command twice in a row with the same payload leaves the same state as issuing
it once. -/
def Obligations.CommandIsIdempotent : Prop :=
  ∀ (s t : State) (w : Word) (p : Payload),
    perform (.command w p) s = .next t → perform (.command w p) t = .next t

/-- R59, R280: a register write is seen by the very next command. After `WRITE_REG` of all three
configuration registers, `ENC.C` and `DEC.C` answer what `encode` and `decode` give under exactly the
configuration written: the output with `STATUS = 0x01`, or the report of the error. The registers stay as
written, and no other component of the block changes. -/
def Obligations.WritesAreSeenByTheNextCommand : Prop :=
  ∀ (s : State) (strict validate : Bool) (repl : Char21) (max : Word), s.OfHardware →
    isScalar repl = true → s.port.refusal = none →
    let cfg : CodecCfg := { strict := strict, repl := repl, max := max.toNat, validate := validate }
    let writes : List Transaction :=
      [ .writeReg 0 ((BitVec.ofBool validate ++ BitVec.ofBool strict).setWidth 32)
      , .writeReg 1 (repl.setWidth 32), .writeReg 2 max ]
    let written : State :=
      { s with cfg := (BitVec.ofBool validate ++ BitVec.ofBool strict).setWidth 32
               repl := repl.setWidth 32, maxlen := max }
    let responded (u : State) : State :=
      { u with port := { u.port with input := .empty
                                     response := .command u.status u.errinfo u.result u.out } }
    (s.hostRun writes).registerCfg = cfg ∧
    (∀ text : List Char21, text.length ≤ s.params.inCap → (∀ c ∈ text, isScalar c = true) →
      s.hostRun (writes ++ [.command 0x11#32 (.ofText text)]) = responded
        (match encodeText hw s.tables text cfg with
         | .ok out => written.okResponse (.ofBytes out) (BitVec.ofNat 32 out.length)
         | .err e => written.errorResponse e)) ∧
    (∀ bytes : List Byte, bytes.length ≤ s.params.inCap →
      s.hostRun (writes ++ [.command 0x12#32 (.ofBytes bytes)]) = responded
        (match decodeBytes hw s.tables bytes cfg with
         | .ok text => written.okResponse (.ofText text) (BitVec.ofNat 32 text.length)
         | .err e => written.errorResponse e))

/-- R282: a run of transactions, one step each, is the machine's run over the same transactions: it
takes that many steps if none is refused, and is refused as soon as one is (assumption logs 1, 4). -/
def Obligations.HostRunIsTheMachineRun : Prop :=
  ∀ (s : State) (ts : List Transaction), s.port.refusal = none → s.port.pending = [] →
    core.run ts.length { s with port := { s.port with pending := ts } } =
      match (s.hostRun ts).port.refusal with
      | none => .next (s.hostRun ts)
      | some r => .refused r
end

