-- ==== Sys2Proof/Laws/Codec.lean ====
section
/-! SUPPORT. What the encoder, the decoder and the measurement functions answer, one lemma each. -/

namespace Sys2Proof.Machine

variable (T : Tables)

@[simp] theorem hw_baseSize : hw.baseSize = 128 := rfl
@[simp] theorem hw_esc : hw.esc = 0x1B#8 := rfl
@[simp] theorem hw_fallback : hw.fallback = 0x20#8 := rfl
@[simp] theorem hw_defaultRepl : hw.defaultRepl = 0xFFFD#21 := rfl

@[simp] theorem Result.ok_ne_err {α : Type} (v : α) (e : CodecError) :
    (Result.ok v : Result α) ≠ .err e := by
  intro h; cases h

/-! ### Encoder -/

theorem encodeChar_of_mapped {cfg : CodecCfg} {c : Char21} (h : T.mapped c) :
    encodeChar hw T cfg c = .ok (T.codeBytes c) := by
  unfold encodeChar Tables.codeBytes
  cases hc : T.invAt c with
  | none => exact absurd hc h
  | some k => cases k <;> rfl

theorem encodeChar_of_lenient {cfg : CodecCfg} (hs : cfg.strict = false) (c : Char21) :
    encodeChar hw T cfg c = .ok (T.lenientBytes cfg.repl c) := by
  unfold encodeChar Tables.lenientBytes
  cases hc : T.invAt c with
  | some k => cases k <;> rfl
  | none =>
    simp only [encodeUnmapped, hs]
    cases hr : T.invAt cfg.repl with
    | none => simp
    | some k => cases k <;> simp [Code.bytes]

theorem encodeChar_of_unmapped_strict {cfg : CodecCfg} (hs : cfg.strict = true) {c : Char21}
    (h : ¬ T.mapped c) : encodeChar hw T cfg c = .err (.unsupportedCharacter c c.toNat) := by
  have hn : T.invAt c = none := by simpa [Tables.mapped] using h
  simp [encodeChar, encodeUnmapped, hn, hs, codePoint]

/-- A pass over characters that all have bytes is the concatenation of their bytes, in order. -/
theorem encodeFrom_of_forall_ok {cfg : CodecCfg} {f : Char21 → List Byte} {text : List Char21}
    (h : ∀ c ∈ text, encodeChar hw T cfg c = .ok (f c)) :
    encodeFrom hw T cfg text = .ok (text.flatMap f) := by
  induction text with
  | nil => rfl
  | cons c rest ih =>
    have hc := h c (by simp)
    have hr := ih fun x hx => h x (by simp [hx])
    simp [encodeFrom, hc, hr]

/-- The first character that fails ends the pass with its error. -/
theorem encodeFrom_of_first_err {cfg : CodecCfg} {f : Char21 → List Byte} {pre post : List Char21}
    {c : Char21} {e : CodecError} (h : ∀ x ∈ pre, encodeChar hw T cfg x = .ok (f x))
    (hc : encodeChar hw T cfg c = .err e) :
    encodeFrom hw T cfg (pre ++ c :: post) = .err e := by
  induction pre with
  | nil => simp [encodeFrom, hc]
  | cons x rest ih =>
    have hx := h x (by simp)
    have hr := ih fun y hy => h y (by simp [hy])
    simp [encodeFrom, hx, hr]

theorem encodeText_of_tooLong {cfg : CodecCfg} {text : List Char21}
    (h : cfg.tooLong text.length = true) :
    encodeText hw T text cfg = .err (.malformedData .lengthExceeded) := by
  simp [encodeText, h]

theorem encodeText_of_fits {cfg : CodecCfg} {text : List Char21}
    (h : cfg.tooLong text.length = false) :
    encodeText hw T text cfg = encodeFrom hw T cfg text := by
  simp [encodeText, h]

@[simp] theorem defaultCfg_tooLong (P : Params) (n : Nat) : (defaultCfg P).tooLong n = false := by
  simp [CodecCfg.tooLong, defaultCfg]

/-- The one error of a character: unsupported, with its own code point (R143, R241). -/
theorem encodeChar_err (P : Params) {cfg : CodecCfg} {c : Char21} {e : CodecError}
    (h : encodeChar P T cfg c = .err e) : e = .unsupportedCharacter c c.toNat := by
  unfold encodeChar encodeUnmapped at h
  repeat' split at h
  all_goals (cases h; try rfl)

/-- The one error of the loop: some character of the text is unsupported. -/
theorem encodeFrom_err (P : Params) {cfg : CodecCfg} {text : List Char21} {e : CodecError}
    (h : encodeFrom P T cfg text = .err e) : ∃ c, e = .unsupportedCharacter c c.toNat := by
  induction text with
  | nil => cases h
  | cons x rest ih =>
    unfold encodeFrom at h
    cases hc : encodeChar P T cfg x with
    | err e' =>
      simp only [hc, Result.err.injEq] at h
      exact ⟨x, h ▸ encodeChar_err T P hc⟩
    | ok bytes =>
      cases hr : encodeFrom P T cfg rest with
      | err e' =>
        simp only [hc, hr, Result.err.injEq] at h
        exact ih (h ▸ hr)
      | ok out => simp [hc, hr] at h

theorem encodeText_unsupported (P : Params) {cfg : CodecCfg} {text : List Char21} {c : Char21} {cp : Nat}
    (h : encodeText P T text cfg = .err (.unsupportedCharacter c cp)) : cp = c.toNat := by
  unfold encodeText at h
  split at h
  · cases h
  · obtain ⟨x, hx⟩ := encodeFrom_err T P h
    cases hx
    rfl

/-! ### Decoder -/

/-- A pass from `EscapePending` is the suffix's step and a pass from `Plain`. -/
theorem runFrom_escape_cons (P : Params) (high : Bool) (cfg : CodecCfg) (b : Byte) (rest : List Byte) :
    runFrom P T high cfg .escapePending (b :: rest) =
      match T.extAt b with
      | some c =>
        match runFrom P T high cfg .plain rest with
        | .err e => .err e
        | .ok t => .ok (c :: t)
      | none =>
        if cfg.strict then .err (.invalidEscapeSequence b)
        else
          match runFrom P T high cfg .plain rest with
          | .err e => .err e
          | .ok t => .ok (cfg.repl :: t) := by
  simp only [runFrom, fsmStep, escapeStep]
  cases hx : T.extAt b with
  | some c => rfl
  | none =>
    simp only [substituteOr]
    cases cfg.strict <;> rfl

theorem runFrom_nil (P : Params) (high : Bool) (cfg : CodecCfg) (q : FsmState) :
    runFrom P T high cfg q [] =
      match q with
      | .plain => .ok []
      | .escapePending =>
        if cfg.strict then .err (.malformedData .escAtEnd) else .ok [cfg.repl] := by
  cases q with
  | plain => rfl
  | escapePending =>
    simp only [runFrom, fsmFinish, substituteOr]
    cases cfg.strict <;> rfl

/-- A pass from `Plain`: the prefix byte goes on in `EscapePending`, any other emits one character or
fails. -/
theorem runFrom_plain_cons (cfg : CodecCfg) (b : Byte) (rest : List Byte) :
    runFrom hw T false cfg .plain (b :: rest) =
      if b = 0x1B#8 then runFrom hw T false cfg .escapePending rest
      else if 0x80 ≤ b.toNat then
        match runFrom hw T false cfg .plain rest with
        | .err e => .err e
        | .ok t => .ok (cfg.repl :: t)
      else
        match T.baseAt b with
        | some c =>
          match runFrom hw T false cfg .plain rest with
          | .err e => .err e
          | .ok t => .ok (c :: t)
        | none =>
          if cfg.strict then .err (.invalidByte b)
          else
            match runFrom hw T false cfg .plain rest with
            | .err e => .err e
            | .ok t => .ok (cfg.repl :: t) := by
  by_cases hb : b = 0x1B#8
  · simp only [runFrom, fsmStep, plainStep, hw_esc, hb, if_true]
    cases runFrom hw T false cfg .escapePending rest <;> simp
  · by_cases hh : 0x80 ≤ b.toNat
    · have hn : ¬ b.toNat < 128 := by omega
      simp only [runFrom, fsmStep, plainStep, hw_esc, hw_baseSize, hb, hn, hh, if_false, if_true, Bool.false_eq_true]
      cases runFrom hw T false cfg .plain rest <;> rfl
    · have hn : b.toNat < 128 := by omega
      simp only [runFrom, fsmStep, plainStep, hw_esc, hw_baseSize, hb, hn, hh, if_false, if_true]
      cases T.baseAt b with
      | some c => cases hr : runFrom hw T false cfg .plain rest <;> simp [hr]
      | none =>
        simp only [substituteOr]
        cases cfg.strict <;> cases hr : runFrom hw T false cfg .plain rest <;> simp [hr]

/-- Decoding raises no `UnsupportedCharacter` (R240). -/
theorem runFrom_ne_unsupported (P : Params) (high : Bool) (cfg : CodecCfg) (q : FsmState)
    (bytes : List Byte) (c : Char21) (cp : Nat) :
    runFrom P T high cfg q bytes ≠ .err (.unsupportedCharacter c cp) := by
  induction bytes generalizing q with
  | nil =>
    rw [runFrom_nil]
    cases q <;> cases cfg.strict <;> simp
  | cons b rest ih =>
    have hs : ∀ e, fsmStep P T high cfg q b = .err e → ∀ c cp, e ≠ .unsupportedCharacter c cp := by
      intro e he
      unfold fsmStep plainStep escapeStep substituteOr at he
      repeat' split at he
      all_goals (cases he; try (intro c cp; simp))
    unfold runFrom
    cases hf : fsmStep P T high cfg q b with
    | err e => simpa using hs e hf c cp
    | ok r =>
      have h' := ih r.1
      cases hr : runFrom P T high cfg r.1 rest with
      | err e => simpa [hr] using h'
      | ok t => simp [hr]

/-- With this hardware's parameters the validation pass has the main pass's verdict (R168). -/
theorem validatePass_eq (bytes : List Byte) (cfg : CodecCfg) :
    validatePass hw T bytes cfg =
      match runPass hw T bytes cfg with
      | .ok _ => .ok ()
      | .err e => .err e := rfl

/-- `decode` is the length check and the main pass, whether or not it validates first. -/
theorem decodeBytes_eq (bytes : List Byte) (cfg : CodecCfg) :
    decodeBytes hw T bytes cfg =
      if cfg.tooLong bytes.length then .err (.malformedData .lengthExceeded)
      else runPass hw T bytes cfg := by
  unfold decodeBytes
  rw [validatePass_eq]
  cases cfg.validate <;> cases runPass hw T bytes cfg <;> simp

/-! ### Measurement -/

theorem encodedLen_of_mapped {text : List Char21} (h : ∀ c ∈ text, T.mapped c) :
    encodedLen T text = .ok ((text.map T.codeSize).sum) := by
  induction text with
  | nil => rfl
  | cons c rest ih =>
    have hc : T.mapped c := h c (by simp)
    have hr := ih fun x hx => h x (by simp [hx])
    unfold encodedLen
    cases hk : T.invAt c with
    | none => exact absurd hk hc
    | some k => cases k <;> simp [hr, Code.size, Tables.codeSize, hk]

theorem encodedLen_of_first_unmapped {pre post : List Char21} {c : Char21}
    (h : ∀ x ∈ pre, T.mapped x) (hc : ¬ T.mapped c) :
    encodedLen T (pre ++ c :: post) = .err (.unsupportedCharacter c c.toNat) := by
  have hn : T.invAt c = none := by simpa [Tables.mapped] using hc
  induction pre with
  | nil => simp [encodedLen, hn, codePoint]
  | cons x rest ih =>
    have hx : T.mapped x := h x (by simp)
    have hr := ih fun y hy => h y (by simp [hy])
    rw [List.cons_append]
    unfold encodedLen
    cases hk : T.invAt x with
    | none => exact absurd hk hx
    | some k => simp [hr]

/-- Every text is all mapped, or has a first unmapped character. -/
theorem mapped_or_first_unmapped (text : List Char21) :
    (∀ c ∈ text, T.mapped c) ∨
    ∃ pre c post, text = pre ++ c :: post ∧ (∀ x ∈ pre, T.mapped x) ∧ ¬ T.mapped c := by
  induction text with
  | nil => simp
  | cons x rest ih =>
    by_cases hx : T.mapped x
    · obtain h | ⟨pre, c, post, rfl, hp, hc⟩ := ih
      · left
        simpa [hx] using h
      · exact .inr ⟨x :: pre, c, post, rfl, by simpa [hx] using hp, hc⟩
    · exact .inr ⟨[], x, rest, rfl, by simp, hx⟩

end Sys2Proof.Machine
end

