-- ==== Sys2Proof/Laws/Operands.lean ====
section
/-! SUPPORT. What the payload views and the operand checks answer. -/

namespace Sys2Proof.Machine

@[simp] theorem Payload.length_ofText (t : List Char21) : (Payload.ofText t).length = t.length := by
  cases t <;> rfl

@[simp] theorem Payload.length_ofBytes (b : List Byte) : (Payload.ofBytes b).length = b.length := by
  cases b <;> rfl

@[simp] theorem Payload.asText_ofText (t : List Char21) : (Payload.ofText t).asText = some t := by
  cases t <;> rfl

@[simp] theorem Payload.asBytes_ofBytes (b : List Byte) : (Payload.ofBytes b).asBytes = some b := by
  cases b <;> rfl

theorem Payload.asText_eq_some {p : Payload} {t : List Char21} :
    p.asText = some t ↔ p = .ofText t := by
  cases p <;> cases t <;> simp [Payload.asText, Payload.ofText]

theorem Payload.asBytes_eq_some {p : Payload} {b : List Byte} :
    p.asBytes = some b ↔ p = .ofBytes b := by
  cases p <;> cases b <;> simp [Payload.asBytes, Payload.ofBytes]

theorem State.overCapacity_eq_false {s : State} {p : Payload} :
    s.overCapacity p = false ↔ p.length ≤ s.params.inCap := by
  simp [State.overCapacity]

/-- Everything `textOperand` can admit. -/
theorem State.textOperand_eq_ok {s : State} {t : List Char21} :
    s.textOperand = .ok t ↔ TextInput s t := by
  unfold State.textOperand TextInput
  by_cases hc : s.overCapacity s.port.input = true
  · have hlen : ¬ s.port.input.length ≤ s.params.inCap := by
      simpa [State.overCapacity] using hc
    simp only [hc, if_true]
    constructor
    · intro h; cases h
    · rintro ⟨hp, hl, -⟩
      rw [hp, Payload.length_ofText] at hlen
      exact absurd hl hlen
  · have hlen : s.port.input.length ≤ s.params.inCap := by
      simpa [State.overCapacity] using hc
    simp only [hc, if_false, Bool.false_eq_true]
    cases ht : s.port.input.asText with
    | none =>
      constructor
      · intro h; cases h
      · rintro ⟨hp, -, -⟩
        rw [hp, Payload.asText_ofText] at ht
        cases ht
    | some u =>
      rw [Payload.asText_eq_some] at ht
      have hu : ∀ v, Payload.ofText u = Payload.ofText v ↔ u = v := fun v => by
        constructor
        · intro h
          have := congrArg Payload.asText h
          simpa using this
        · intro h; rw [h]
      rw [ht, Payload.length_ofText] at hlen
      by_cases ha : u.all isScalar = true
      · simp only [ha, if_true, ht, hu, Except.ok.injEq]
        constructor
        · rintro rfl
          exact ⟨rfl, hlen, by simpa using ha⟩
        · exact fun h => h.1
      · simp only [ha, ht, hu, if_false, Bool.false_eq_true]
        constructor
        · intro h; cases h
        · rintro ⟨rfl, -, h⟩
          exact absurd (by simpa using h) ha

/-- Everything `byteOperand` can admit. -/
theorem State.byteOperand_eq_ok {s : State} {b : List Byte} :
    s.byteOperand = .ok b ↔ ByteInput s b := by
  unfold State.byteOperand ByteInput
  by_cases hc : s.overCapacity s.port.input = true
  · have hlen : ¬ s.port.input.length ≤ s.params.inCap := by
      simpa [State.overCapacity] using hc
    simp only [hc, if_true]
    constructor
    · intro h; cases h
    · rintro ⟨hp, hl⟩
      rw [hp, Payload.length_ofBytes] at hlen
      exact absurd hl hlen
  · have hlen : s.port.input.length ≤ s.params.inCap := by
      simpa [State.overCapacity] using hc
    simp only [hc, if_false, Bool.false_eq_true]
    cases hb : s.port.input.asBytes with
    | none =>
      constructor
      · intro h; cases h
      · rintro ⟨hp, -⟩
        rw [hp, Payload.asBytes_ofBytes] at hb
        cases hb
    | some u =>
      rw [Payload.asBytes_eq_some] at hb
      rw [hb, Payload.length_ofBytes] at hlen
      simp only [Except.ok.injEq, hb]
      constructor
      · rintro rfl; exact ⟨rfl, hlen⟩
      · rintro ⟨h, -⟩
        simpa using congrArg Payload.asBytes h

/-- Everything `noOperand` can admit. -/
theorem State.noOperand_eq_ok {s : State} {u : Unit} :
    s.noOperand = .ok u ↔ s.port.input = .empty := by
  unfold State.noOperand
  cases hp : s.port.input <;> simp [State.overCapacity, Payload.length] <;> split <;> simp

/-- The length check of R141 and R161. -/
theorem CodecCfg.tooLong_eq_true {cfg : CodecCfg} {n : Nat} :
    cfg.tooLong n = true ↔ 0 < cfg.max ∧ cfg.max < n := by
  simp [CodecCfg.tooLong]

/-! ### The parameters of this hardware (R6) -/

namespace State.OfHardware

variable {s : State} (h : s.OfHardware)

include h

theorem codec : s.params.codec = hw := by
  obtain ⟨n, h⟩ := h
  rw [h]
  rfl

theorem lenW : s.params.lenW = 32 := by
  obtain ⟨n, h⟩ := h
  rw [h]
  rfl

theorem tables : Tables.ofParameters s.params = hwTables := by
  obtain ⟨n, h⟩ := h
  rw [h]
  rfl

/-- `RESULT` is 32 bits wide (R27). -/
theorem lenWord (n : Nat) : s.params.lenWord n = BitVec.ofNat 32 n := by
  apply BitVec.eq_of_toNat_eq
  simp [BlockParams.lenWord, h.lenW]

/-- "All 32 bits are significant" (R24), in a write. -/
theorem lenWord_toNat (v : Word) : s.params.lenWord v.toNat = v := by simp [h.lenWord]

/-- "All 32 bits are significant" (R24), in a read. -/
theorem maxLength : s.maxLength = s.maxlen.toNat := by
  rw [State.maxLength, h.lenW]
  exact Nat.mod_eq_of_lt s.maxlen.isLt

/-- The parameters are all that makes a state one of this hardware. -/
theorem of_params_eq {t : State} (ht : t.params = s.params) : t.OfHardware := by
  obtain ⟨n, h⟩ := h
  exact ⟨n, ht.trans h⟩

/-- Under the registers' configuration, 0 in `MAXLEN` being no limit (R24). -/
theorem registerCfg_tooLong {n : Nat} :
    s.registerCfg.tooLong n = true ↔ s.maxlen ≠ 0#32 ∧ s.maxlen.toNat < n := by
  rw [CodecCfg.tooLong_eq_true]
  show 0 < s.maxLength ∧ s.maxLength < n ↔ _
  have h0 : s.maxlen = 0#32 ↔ s.maxlen.toNat = 0 := by rw [BitVec.toNat_eq]; rfl
  rw [h.maxLength, ne_eq, h0]
  omega

end State.OfHardware

end Sys2Proof.Machine
end

