-- ==== Sys2Proof/Laws/State.lean ====
section
/-! SUPPORT. One lemma per field per update of the state, so that no later proof unfolds a record
update. -/

namespace Sys2Proof.Machine

variable (s : State)

/-! ### `respond` -/

@[simp] theorem State.respond_cfg (r : Response) : (s.respond r).cfg = s.cfg := rfl
@[simp] theorem State.respond_repl (r : Response) : (s.respond r).repl = s.repl := rfl
@[simp] theorem State.respond_maxlen (r : Response) : (s.respond r).maxlen = s.maxlen := rfl
@[simp] theorem State.respond_status (r : Response) : (s.respond r).status = s.status := rfl
@[simp] theorem State.respond_errinfo (r : Response) : (s.respond r).errinfo = s.errinfo := rfl
@[simp] theorem State.respond_result (r : Response) : (s.respond r).result = s.result := rfl
@[simp] theorem State.respond_fsm (r : Response) : (s.respond r).fsm = s.fsm := rfl
@[simp] theorem State.respond_out (r : Response) : (s.respond r).out = s.out := rfl
@[simp] theorem State.respond_tables (r : Response) : (s.respond r).tables = s.tables := rfl
@[simp] theorem State.respond_params (r : Response) : (s.respond r).params = s.params := rfl
@[simp] theorem State.respond_port_pending (r : Response) : (s.respond r).port.pending = s.port.pending := rfl
@[simp] theorem State.respond_port_input (r : Response) : (s.respond r).port.input = .empty := rfl
@[simp] theorem State.respond_port_response (r : Response) : (s.respond r).port.response = r := rfl
@[simp] theorem State.respond_port_refusal (r : Response) : (s.respond r).port.refusal = s.port.refusal := rfl

/-! ### `withInput` -/

@[simp] theorem State.withInput_cfg (p : Payload) : (s.withInput p).cfg = s.cfg := rfl
@[simp] theorem State.withInput_repl (p : Payload) : (s.withInput p).repl = s.repl := rfl
@[simp] theorem State.withInput_maxlen (p : Payload) : (s.withInput p).maxlen = s.maxlen := rfl
@[simp] theorem State.withInput_status (p : Payload) : (s.withInput p).status = s.status := rfl
@[simp] theorem State.withInput_errinfo (p : Payload) : (s.withInput p).errinfo = s.errinfo := rfl
@[simp] theorem State.withInput_result (p : Payload) : (s.withInput p).result = s.result := rfl
@[simp] theorem State.withInput_fsm (p : Payload) : (s.withInput p).fsm = s.fsm := rfl
@[simp] theorem State.withInput_out (p : Payload) : (s.withInput p).out = s.out := rfl
@[simp] theorem State.withInput_tables (p : Payload) : (s.withInput p).tables = s.tables := rfl
@[simp] theorem State.withInput_params (p : Payload) : (s.withInput p).params = s.params := rfl
@[simp] theorem State.withInput_port_pending (p : Payload) : (s.withInput p).port.pending = s.port.pending := rfl
@[simp] theorem State.withInput_port_input (p : Payload) : (s.withInput p).port.input = p := rfl
@[simp] theorem State.withInput_port_response (p : Payload) : (s.withInput p).port.response = s.port.response := rfl
@[simp] theorem State.withInput_port_refusal (p : Payload) : (s.withInput p).port.refusal = s.port.refusal := rfl

/-! ### `withPending` -/

@[simp] theorem State.withPending_cfg (ts : List Transaction) : (s.withPending ts).cfg = s.cfg := rfl
@[simp] theorem State.withPending_repl (ts : List Transaction) : (s.withPending ts).repl = s.repl := rfl
@[simp] theorem State.withPending_maxlen (ts : List Transaction) : (s.withPending ts).maxlen = s.maxlen := rfl
@[simp] theorem State.withPending_status (ts : List Transaction) : (s.withPending ts).status = s.status := rfl
@[simp] theorem State.withPending_errinfo (ts : List Transaction) : (s.withPending ts).errinfo = s.errinfo := rfl
@[simp] theorem State.withPending_result (ts : List Transaction) : (s.withPending ts).result = s.result := rfl
@[simp] theorem State.withPending_fsm (ts : List Transaction) : (s.withPending ts).fsm = s.fsm := rfl
@[simp] theorem State.withPending_out (ts : List Transaction) : (s.withPending ts).out = s.out := rfl
@[simp] theorem State.withPending_tables (ts : List Transaction) : (s.withPending ts).tables = s.tables := rfl
@[simp] theorem State.withPending_params (ts : List Transaction) : (s.withPending ts).params = s.params := rfl
@[simp] theorem State.withPending_port_pending (ts : List Transaction) : (s.withPending ts).port.pending = ts := rfl
@[simp] theorem State.withPending_port_input (ts : List Transaction) : (s.withPending ts).port.input = s.port.input := rfl
@[simp] theorem State.withPending_port_response (ts : List Transaction) : (s.withPending ts).port.response = s.port.response := rfl
@[simp] theorem State.withPending_port_refusal (ts : List Transaction) : (s.withPending ts).port.refusal = s.port.refusal := rfl

/-! ### `mark` -/

@[simp] theorem State.mark_cfg (r : Refusal) : (s.mark r).cfg = s.cfg := rfl
@[simp] theorem State.mark_repl (r : Refusal) : (s.mark r).repl = s.repl := rfl
@[simp] theorem State.mark_maxlen (r : Refusal) : (s.mark r).maxlen = s.maxlen := rfl
@[simp] theorem State.mark_status (r : Refusal) : (s.mark r).status = s.status := rfl
@[simp] theorem State.mark_errinfo (r : Refusal) : (s.mark r).errinfo = s.errinfo := rfl
@[simp] theorem State.mark_result (r : Refusal) : (s.mark r).result = s.result := rfl
@[simp] theorem State.mark_fsm (r : Refusal) : (s.mark r).fsm = s.fsm := rfl
@[simp] theorem State.mark_out (r : Refusal) : (s.mark r).out = s.out := rfl
@[simp] theorem State.mark_tables (r : Refusal) : (s.mark r).tables = s.tables := rfl
@[simp] theorem State.mark_params (r : Refusal) : (s.mark r).params = s.params := rfl
@[simp] theorem State.mark_port_pending (r : Refusal) : (s.mark r).port.pending = s.port.pending := rfl
@[simp] theorem State.mark_port_input (r : Refusal) : (s.mark r).port.input = s.port.input := rfl
@[simp] theorem State.mark_port_response (r : Refusal) : (s.mark r).port.response = s.port.response := rfl
@[simp] theorem State.mark_port_refusal (r : Refusal) : (s.mark r).port.refusal = some r := rfl

/-! ### `succeed` -/

@[simp] theorem State.succeed_cfg (o : Payload) (w : Word) : (s.succeed o w).cfg = s.cfg := rfl
@[simp] theorem State.succeed_repl (o : Payload) (w : Word) : (s.succeed o w).repl = s.repl := rfl
@[simp] theorem State.succeed_maxlen (o : Payload) (w : Word) : (s.succeed o w).maxlen = s.maxlen := rfl
@[simp] theorem State.succeed_status (o : Payload) (w : Word) : (s.succeed o w).status = statusOk := rfl
@[simp] theorem State.succeed_errinfo (o : Payload) (w : Word) : (s.succeed o w).errinfo = 0#32 := rfl
@[simp] theorem State.succeed_result (o : Payload) (w : Word) : (s.succeed o w).result = w := rfl
@[simp] theorem State.succeed_fsm (o : Payload) (w : Word) : (s.succeed o w).fsm = 0#32 := rfl
@[simp] theorem State.succeed_out (o : Payload) (w : Word) : (s.succeed o w).out = o := rfl
@[simp] theorem State.succeed_tables (o : Payload) (w : Word) : (s.succeed o w).tables = s.tables := rfl
@[simp] theorem State.succeed_params (o : Payload) (w : Word) : (s.succeed o w).params = s.params := rfl
@[simp] theorem State.succeed_port (o : Payload) (w : Word) : (s.succeed o w).port = s.port := rfl

/-! ### `report` -/

@[simp] theorem State.report_cfg (e : CodecError) : (s.report e).cfg = s.cfg := rfl
@[simp] theorem State.report_repl (e : CodecError) : (s.report e).repl = s.repl := rfl
@[simp] theorem State.report_maxlen (e : CodecError) : (s.report e).maxlen = s.maxlen := rfl
@[simp] theorem State.report_status (e : CodecError) : (s.report e).status = statusErr e := rfl
@[simp] theorem State.report_errinfo (e : CodecError) : (s.report e).errinfo = e.info := rfl
@[simp] theorem State.report_result (e : CodecError) : (s.report e).result = 0#32 := rfl
@[simp] theorem State.report_fsm (e : CodecError) : (s.report e).fsm = 0#32 := rfl
@[simp] theorem State.report_out (e : CodecError) : (s.report e).out = .empty := rfl
@[simp] theorem State.report_tables (e : CodecError) : (s.report e).tables = s.tables := rfl
@[simp] theorem State.report_params (e : CodecError) : (s.report e).params = s.params := rfl
@[simp] theorem State.report_port (e : CodecError) : (s.report e).port = s.port := rfl

/-! ### `illegalVerdict` -/

@[simp] theorem State.illegalVerdict_cfg : s.illegalVerdict.cfg = s.cfg := rfl
@[simp] theorem State.illegalVerdict_repl : s.illegalVerdict.repl = s.repl := rfl
@[simp] theorem State.illegalVerdict_maxlen : s.illegalVerdict.maxlen = s.maxlen := rfl
@[simp] theorem State.illegalVerdict_status : s.illegalVerdict.status = statusIllegal := rfl
@[simp] theorem State.illegalVerdict_errinfo : s.illegalVerdict.errinfo = 0#32 := rfl
@[simp] theorem State.illegalVerdict_result : s.illegalVerdict.result = 0#32 := rfl
@[simp] theorem State.illegalVerdict_fsm : s.illegalVerdict.fsm = 0#32 := rfl
@[simp] theorem State.illegalVerdict_out : s.illegalVerdict.out = .empty := rfl
@[simp] theorem State.illegalVerdict_tables : s.illegalVerdict.tables = s.tables := rfl
@[simp] theorem State.illegalVerdict_params : s.illegalVerdict.params = s.params := rfl
@[simp] theorem State.illegalVerdict_port : s.illegalVerdict.port = s.port := rfl

/-! ### `loadCfg` -/

@[simp] theorem State.loadCfg_cfg (c : CodecCfg) : (s.loadCfg c).cfg = 0#30 ++ BitVec.ofBool c.validate ++ BitVec.ofBool c.strict := rfl
@[simp] theorem State.loadCfg_repl (c : CodecCfg) : (s.loadCfg c).repl = c.repl.setWidth 32 := rfl
@[simp] theorem State.loadCfg_maxlen (c : CodecCfg) : (s.loadCfg c).maxlen = s.params.lenWord c.max := rfl
@[simp] theorem State.loadCfg_status (c : CodecCfg) : (s.loadCfg c).status = s.status := rfl
@[simp] theorem State.loadCfg_errinfo (c : CodecCfg) : (s.loadCfg c).errinfo = s.errinfo := rfl
@[simp] theorem State.loadCfg_result (c : CodecCfg) : (s.loadCfg c).result = s.result := rfl
@[simp] theorem State.loadCfg_fsm (c : CodecCfg) : (s.loadCfg c).fsm = s.fsm := rfl
@[simp] theorem State.loadCfg_out (c : CodecCfg) : (s.loadCfg c).out = s.out := rfl
@[simp] theorem State.loadCfg_tables (c : CodecCfg) : (s.loadCfg c).tables = s.tables := rfl
@[simp] theorem State.loadCfg_params (c : CodecCfg) : (s.loadCfg c).params = s.params := rfl
@[simp] theorem State.loadCfg_port (c : CodecCfg) : (s.loadCfg c).port = s.port := rfl

/-! ### `resetBlock` -/

@[simp] theorem State.resetBlock_cfg : s.resetBlock.cfg = 0#32 := rfl
@[simp] theorem State.resetBlock_repl : s.resetBlock.repl = s.params.codec.defaultRepl.setWidth 32 := rfl
@[simp] theorem State.resetBlock_maxlen : s.resetBlock.maxlen = 0#32 := rfl
@[simp] theorem State.resetBlock_status : s.resetBlock.status = 0#32 := rfl
@[simp] theorem State.resetBlock_errinfo : s.resetBlock.errinfo = 0#32 := rfl
@[simp] theorem State.resetBlock_result : s.resetBlock.result = 0#32 := rfl
@[simp] theorem State.resetBlock_fsm : s.resetBlock.fsm = 0#32 := rfl
@[simp] theorem State.resetBlock_out : s.resetBlock.out = .empty := rfl
@[simp] theorem State.resetBlock_tables : s.resetBlock.tables = Tables.ofParameters s.params := rfl
@[simp] theorem State.resetBlock_params : s.resetBlock.params = s.params := rfl
@[simp] theorem State.resetBlock_port : s.resetBlock.port = s.port := rfl

end Sys2Proof.Machine
end

