-- ==== Sys2Proof/Laws/Exec.lean ====
section
/-! SUPPORT. The shared responses as the spec writes them out, and for each meaning everything it can do
when it answers a next state. -/

namespace Sys2Proof.Machine

theorem statusOk_eq : statusOk = 0x01#32 := by decide

theorem statusIllegal_eq : statusIllegal = 0x21#32 := by decide

theorem State.succeed_eq_okResponse (s : State) (o : Payload) (w : Word) :
    s.succeed o w = s.okResponse o w := by
  simp [State.succeed, State.okResponse, statusOk_eq]

/-- The `STATUS` words of R244's table. -/
theorem statusErr_eq (e : CodecError) : statusErr e =
    match e with
    | .unsupportedCharacter _ _ => 0x07#32
    | .invalidEscapeSequence _ => 0x0B#32
    | .invalidByte _ => 0x0F#32
    | .malformedData .lengthExceeded => 0x53#32
    | .malformedData .escAtEnd => 0x93#32 := by
  have h1 : statusWord true true 1#3 false 0#2 = 0x07#32 := by decide
  have h2 : statusWord true true 2#3 false 0#2 = 0x0B#32 := by decide
  have h3 : statusWord true true 3#3 false 0#2 = 0x0F#32 := by decide
  have h4 : statusWord true true 4#3 false 1#2 = 0x53#32 := by decide
  have h5 : statusWord true true 4#3 false 2#2 = 0x93#32 := by decide
  cases e with
  | malformedData r => cases r with
    | lengthExceeded => exact h4
    | escAtEnd => exact h5
  | unsupportedCharacter c cp => exact h1
  | invalidEscapeSequence x => exact h2
  | invalidByte b => exact h3

/-- `report` is the response R244 writes out; the code point is recorded once (R241). -/
theorem State.report_eq_errorResponse (s : State) (e : CodecError)
    (h : ∀ c cp, e = .unsupportedCharacter c cp → cp = c.toNat) :
    s.report e = s.errorResponse e := by
  cases e with
  | unsupportedCharacter c cp =>
    rw [h c cp rfl]
    simp [State.report, State.errorResponse, CodecError.info, statusErr_eq]
  | invalidEscapeSequence x =>
    simp [State.report, State.errorResponse, CodecError.info, statusErr_eq]
  | invalidByte b => simp [State.report, State.errorResponse, CodecError.info, statusErr_eq]
  | malformedData r =>
    cases r <;> simp [State.report, State.errorResponse, CodecError.info, statusErr_eq]

theorem execEnc_next {s t : State} : execEnc s = .next t ↔
    ∃ text, TextInput s text ∧ t = s.answerBytes (encodeText s.params.codec s.tables text (defaultCfg s.params.codec)) := by
  unfold execEnc
  simp only [← State.textOperand_eq_ok]
  cases s.textOperand with
  | error r => simp
  | ok u =>
    simp only [Host.Outcome.next.injEq, Except.ok.injEq, exists_eq_left']
    exact eq_comm

theorem execEncC_next {s t : State} : execEncC s = .next t ↔
    ∃ text, TextInput s text ∧ t = s.answerBytes (encodeText s.params.codec s.tables text s.registerCfg) := by
  unfold execEncC
  simp only [← State.textOperand_eq_ok]
  cases s.textOperand with
  | error r => simp
  | ok u =>
    simp only [Host.Outcome.next.injEq, Except.ok.injEq, exists_eq_left']
    exact eq_comm

theorem execDec_next {s t : State} : execDec s = .next t ↔
    ∃ b, ByteInput s b ∧ t = s.answerText (decodeBytes s.params.codec s.tables b (defaultCfg s.params.codec)) := by
  unfold execDec
  simp only [← State.byteOperand_eq_ok]
  cases s.byteOperand with
  | error r => simp
  | ok u =>
    simp only [Host.Outcome.next.injEq, Except.ok.injEq, exists_eq_left']
    exact eq_comm

theorem execDecC_next {s t : State} : execDecC s = .next t ↔
    ∃ b, ByteInput s b ∧ t = s.answerText (decodeBytes s.params.codec s.tables b s.registerCfg) := by
  unfold execDecC
  simp only [← State.byteOperand_eq_ok]
  cases s.byteOperand with
  | error r => simp
  | ok u =>
    simp only [Host.Outcome.next.injEq, Except.ok.injEq, exists_eq_left']
    exact eq_comm

theorem execElen_next {s t : State} : execElen s = .next t ↔
    ∃ text, TextInput s text ∧ t = s.answerCount (encodedLen s.tables text) := by
  unfold execElen
  simp only [← State.textOperand_eq_ok]
  cases s.textOperand with
  | error r => simp
  | ok u =>
    simp only [Host.Outcome.next.injEq, Except.ok.injEq, exists_eq_left']
    exact eq_comm

theorem execCompat_next {s t : State} : execCompat s = .next t ↔
    ∃ text, TextInput s text ∧
      t = s.succeed .empty (if isCompatible s.tables text then 1#32 else 0#32) := by
  unfold execCompat
  simp only [← State.textOperand_eq_ok]
  cases s.textOperand with
  | error r => simp
  | ok u =>
    simp only [Host.Outcome.next.injEq, Except.ok.injEq, exists_eq_left']
    exact eq_comm

theorem execLkc_next {c : Char21} {s t : State} : execLkc c s = .next t ↔
    s.port.input = .empty ∧ t = s.succeed .empty (codeDescriptor (s.tables.invAt c)) := by
  unfold execLkc
  rw [← State.noOperand_eq_ok (u := ())]
  cases s.noOperand with
  | error r => simp
  | ok u =>
    simp only [Host.Outcome.next.injEq, true_and]
    exact eq_comm

theorem execLkb_next {b : Byte} {s t : State} : execLkb b s = .next t ↔
    s.port.input = .empty ∧
      t = s.succeed .empty (charDescriptor (if b.toNat < s.params.codec.baseSize then s.tables.baseAt b else none)) := by
  unfold execLkb
  rw [← State.noOperand_eq_ok (u := ())]
  cases s.noOperand with
  | error r => simp
  | ok u =>
    simp only [Host.Outcome.next.injEq, true_and]
    exact eq_comm

theorem execLke_next {x : Byte} {s t : State} : execLke x s = .next t ↔
    s.port.input = .empty ∧ t = s.succeed .empty (charDescriptor (s.tables.extAt x)) := by
  unfold execLke
  rw [← State.noOperand_eq_ok (u := ())]
  cases s.noOperand with
  | error r => simp
  | ok u =>
    simp only [Host.Outcome.next.injEq, true_and]
    exact eq_comm

theorem execCfgd_next {s t : State} : execCfgd s = .next t ↔
    s.port.input = .empty ∧ t = (s.loadCfg (defaultCfg s.params.codec)).succeed .empty 0#32 := by
  unfold execCfgd
  rw [← State.noOperand_eq_ok (u := ())]
  cases s.noOperand with
  | error r => simp
  | ok u =>
    simp only [Host.Outcome.next.injEq, true_and]
    exact eq_comm

theorem execCfgs_next {s t : State} : execCfgs s = .next t ↔
    s.port.input = .empty ∧ t = (s.loadCfg (strictCfg s.params.codec)).succeed .empty 0#32 := by
  unfold execCfgs
  rw [← State.noOperand_eq_ok (u := ())]
  cases s.noOperand with
  | error r => simp
  | ok u =>
    simp only [Host.Outcome.next.injEq, true_and]
    exact eq_comm

/-- The three answers of a codec command, as one of the two responses. -/
theorem State.answerBytes_cases (s : State) (r : Result (List Byte)) :
    (∃ out, r = .ok out ∧ s.answerBytes r = s.succeed (.ofBytes out) (s.params.lenWord out.length)) ∨
    (∃ e, r = .err e ∧ s.answerBytes r = s.report e) := by
  cases r with
  | ok out => exact .inl ⟨out, rfl, rfl⟩
  | err e => exact .inr ⟨e, rfl, rfl⟩

theorem State.answerText_cases (s : State) (r : Result (List Char21)) :
    (∃ t, r = .ok t ∧ s.answerText r = s.succeed (.ofText t) (s.params.lenWord t.length)) ∨
    (∃ e, r = .err e ∧ s.answerText r = s.report e) := by
  cases r with
  | ok t => exact .inl ⟨t, rfl, rfl⟩
  | err e => exact .inr ⟨e, rfl, rfl⟩

theorem State.answerCount_cases (s : State) (r : Result Nat) :
    (∃ n, r = .ok n ∧ s.answerCount r = s.succeed .empty (s.params.lenWord n)) ∨
    (∃ e, r = .err e ∧ s.answerCount r = s.report e) := by
  cases r with
  | ok n => exact .inl ⟨n, rfl, rfl⟩
  | err e => exact .inr ⟨e, rfl, rfl⟩

/-- What every command does that answers a next state: the response state, over the configuration
registers as they were or as a preset loads them (R17, R223 step 5). -/
theorem exec_next_cases {i : Instr} {s t : State} (h : exec i s = .next t) :
    (∃ o w, t = s.succeed o w) ∨ (∃ e, t = s.report e) ∨
    (i = .cfgd ∧ t = (s.loadCfg (defaultCfg s.params.codec)).succeed .empty 0#32) ∨
    (i = .cfgs ∧ t = (s.loadCfg (strictCfg s.params.codec)).succeed .empty 0#32) := by
  have bytes : ∀ r, t = s.answerBytes r → (∃ o w, t = s.succeed o w) ∨ (∃ e, t = s.report e) := by
    rintro r rfl
    obtain ⟨o, -, h⟩ | ⟨e, -, h⟩ := s.answerBytes_cases r
    · exact .inl ⟨_, _, h⟩
    · exact .inr ⟨_, h⟩
  have text : ∀ r, t = s.answerText r → (∃ o w, t = s.succeed o w) ∨ (∃ e, t = s.report e) := by
    rintro r rfl
    obtain ⟨o, -, h⟩ | ⟨e, -, h⟩ := s.answerText_cases r
    · exact .inl ⟨_, _, h⟩
    · exact .inr ⟨_, h⟩
  have count : ∀ r, t = s.answerCount r → (∃ o w, t = s.succeed o w) ∨ (∃ e, t = s.report e) := by
    rintro r rfl
    obtain ⟨o, -, h⟩ | ⟨e, -, h⟩ := s.answerCount_cases r
    · exact .inl ⟨_, _, h⟩
    · exact .inr ⟨_, h⟩
  have widen : (∃ o w, t = s.succeed o w) ∨ (∃ e, t = s.report e) →
      (∃ o w, t = s.succeed o w) ∨ (∃ e, t = s.report e) ∨
      (i = .cfgd ∧ t = (s.loadCfg (defaultCfg s.params.codec)).succeed .empty 0#32) ∨
      (i = .cfgs ∧ t = (s.loadCfg (strictCfg s.params.codec)).succeed .empty 0#32) := by
    rintro (h | h)
    · exact .inl h
    · exact .inr (.inl h)
  cases i with
  | enc => obtain ⟨_, -, h⟩ := execEnc_next.1 h; exact widen (bytes _ h)
  | encC => obtain ⟨_, -, h⟩ := execEncC_next.1 h; exact widen (bytes _ h)
  | dec => obtain ⟨_, -, h⟩ := execDec_next.1 h; exact widen (text _ h)
  | decC => obtain ⟨_, -, h⟩ := execDecC_next.1 h; exact widen (text _ h)
  | elen => obtain ⟨_, -, h⟩ := execElen_next.1 h; exact widen (count _ h)
  | compat => obtain ⟨_, -, h⟩ := execCompat_next.1 h; exact .inl ⟨_, _, h⟩
  | lkc c => exact .inl ⟨_, _, (execLkc_next.1 h).2⟩
  | lkb b => exact .inl ⟨_, _, (execLkb_next.1 h).2⟩
  | lke x => exact .inl ⟨_, _, (execLke_next.1 h).2⟩
  | cfgd => exact .inr (.inr (.inl ⟨rfl, (execCfgd_next.1 h).2⟩))
  | cfgs => exact .inr (.inr (.inr ⟨rfl, (execCfgs_next.1 h).2⟩))

/-- A command leaves the host port, the tables and the parameters as they are. -/
theorem exec_port {i : Instr} {s t : State} (h : exec i s = .next t) :
    t.port = s.port ∧ t.tables = s.tables ∧ t.params = s.params := by
  obtain ⟨o, w, rfl⟩ | ⟨e, rfl⟩ | ⟨-, rfl⟩ | ⟨-, rfl⟩ := exec_next_cases h <;> exact ⟨rfl, rfl, rfl⟩

/-! ### What a command reads -/

/-- Two states that agree on what a command may read. -/
structure SameInputs (s s' : State) : Prop where
  cfg : s'.cfg = s.cfg
  repl : s'.repl = s.repl
  maxlen : s'.maxlen = s.maxlen
  tables : s'.tables = s.tables
  params : s'.params = s.params
  input : s'.port.input = s.port.input

theorem SameInputs.succeed {s s' : State} (h : SameInputs s s') (o : Payload) (w : Word) :
    s'.succeed o w = { s.succeed o w with port := s'.port } := by
  simp [State.succeed, h.cfg, h.repl, h.maxlen, h.tables, h.params]

theorem SameInputs.report {s s' : State} (h : SameInputs s s') (e : CodecError) :
    s'.report e = { s.report e with port := s'.port } := by
  simp [State.report, h.cfg, h.repl, h.maxlen, h.tables, h.params]

theorem SameInputs.textOperand {s s' : State} (h : SameInputs s s') :
    s'.textOperand = s.textOperand := by
  simp [State.textOperand, State.overCapacity, h.params, h.input]

theorem SameInputs.byteOperand {s s' : State} (h : SameInputs s s') :
    s'.byteOperand = s.byteOperand := by
  simp [State.byteOperand, State.overCapacity, h.params, h.input]

theorem SameInputs.noOperand {s s' : State} (h : SameInputs s s') : s'.noOperand = s.noOperand := by
  simp [State.noOperand, State.overCapacity, h.params, h.input]

theorem SameInputs.registerCfg {s s' : State} (h : SameInputs s s') :
    s'.registerCfg = s.registerCfg := by
  simp [State.registerCfg, State.strict, State.validate, State.replChar, State.maxLength, h.cfg, h.repl,
    h.maxlen, h.params]

theorem SameInputs.answerBytes {s s' : State} (h : SameInputs s s') (r : Result (List Byte)) :
    s'.answerBytes r = { s.answerBytes r with port := s'.port } := by
  cases r with
  | ok out => simp only [State.answerBytes, h.params, h.succeed]
  | err e => exact h.report e

theorem SameInputs.answerText {s s' : State} (h : SameInputs s s') (r : Result (List Char21)) :
    s'.answerText r = { s.answerText r with port := s'.port } := by
  cases r with
  | ok t => simp only [State.answerText, h.params, h.succeed]
  | err e => exact h.report e

theorem SameInputs.answerCount {s s' : State} (h : SameInputs s s') (r : Result Nat) :
    s'.answerCount r = { s.answerCount r with port := s'.port } := by
  cases r with
  | ok n => simp only [State.answerCount, h.params, h.succeed]
  | err e => exact h.report e

/-- A command's outcome with another host port. -/
def withPortOf (p : Port) : Host.Outcome State Fault Refusal → Host.Outcome State Fault Refusal
  | .next t => .next { t with port := p }
  | .fault f => .fault f
  | .refused r => .refused r

/-- A command reads the configuration registers, the tables, the parameters and its payload, and leaves the host port
as it is: on states that agree on those it has the same outcome but for the port. -/
theorem SameInputs.exec {s s' : State} (h : SameInputs s s') (i : Instr) :
    exec i s' = withPortOf s'.port (exec i s) := by
  cases i with
  | enc =>
    simp only [Machine.exec, execEnc, h.textOperand]
    cases s.textOperand with
    | error r => rfl
    | ok t => simp [withPortOf, h.tables, h.params, h.answerBytes]
  | encC =>
    simp only [Machine.exec, execEncC, h.textOperand]
    cases s.textOperand with
    | error r => rfl
    | ok t => simp [withPortOf, h.tables, h.params, h.registerCfg, h.answerBytes]
  | dec =>
    simp only [Machine.exec, execDec, h.byteOperand]
    cases s.byteOperand with
    | error r => rfl
    | ok t => simp [withPortOf, h.tables, h.params, h.answerText]
  | decC =>
    simp only [Machine.exec, execDecC, h.byteOperand]
    cases s.byteOperand with
    | error r => rfl
    | ok t => simp [withPortOf, h.tables, h.params, h.registerCfg, h.answerText]
  | elen =>
    simp only [Machine.exec, execElen, h.textOperand]
    cases s.textOperand with
    | error r => rfl
    | ok t => simp [withPortOf, h.tables, h.answerCount]
  | compat =>
    simp only [Machine.exec, execCompat, h.textOperand]
    cases s.textOperand with
    | error r => rfl
    | ok t => simp [withPortOf, h.tables, h.succeed]
  | lkc c =>
    simp only [Machine.exec, execLkc, h.noOperand]
    cases s.noOperand with
    | error r => rfl
    | ok t => simp [withPortOf, h.tables, h.succeed]
  | lkb b =>
    simp only [Machine.exec, execLkb, h.noOperand]
    cases s.noOperand with
    | error r => rfl
    | ok t => simp [withPortOf, h.tables, h.params, h.succeed]
  | lke x =>
    simp only [Machine.exec, execLke, h.noOperand]
    cases s.noOperand with
    | error r => rfl
    | ok t => simp [withPortOf, h.tables, h.succeed]
  | cfgd =>
    simp only [Machine.exec, execCfgd, h.noOperand]
    cases s.noOperand with
    | error r => rfl
    | ok t => simp [withPortOf, State.succeed, State.loadCfg, h.tables, h.params]
  | cfgs =>
    simp only [Machine.exec, execCfgs, h.noOperand]
    cases s.noOperand with
    | error r => rfl
    | ok t => simp [withPortOf, State.succeed, State.loadCfg, h.tables, h.params]

end Sys2Proof.Machine
end

