-- ==== Sys2Proof/Laws/PerInstr.lean ====
section
/-! SUPPORT. The fields of the command-word template, and facts about every instruction as syntax, one
lemma per constructor. -/

namespace Sys2Proof

/-! ### The template `000A_AAAA_AAAA_AAAA_AAAA_AAAA_000U_OOOO` (R74) -/

theorem opOf_commandWord (op : BitVec 4) (uc : Bool) (arg : BitVec 21) :
    opOf (commandWord op uc arg) = op := by
  ext k hk
  unfold opOf commandWord
  simp only [BitVec.getElem_extractLsb', BitVec.getLsbD_append]
  simp [hk]

theorem ucOf_commandWord (op : BitVec 4) (uc : Bool) (arg : BitVec 21) :
    ucOf (commandWord op uc arg) = uc := by
  unfold ucOf commandWord
  simp only [BitVec.getLsbD_append]
  simp

theorem argOf_commandWord (op : BitVec 4) (uc : Bool) (arg : BitVec 21) :
    argOf (commandWord op uc arg) = arg := by
  ext k hk
  unfold argOf commandWord
  simp only [BitVec.getElem_extractLsb', BitVec.getLsbD_append]
  have h1 : ¬ 8 + k < 4 := by omega
  have h2 : ¬ 8 + k - 4 < 1 := by omega
  have h3 : ¬ 8 + k - 4 - 1 < 3 := by omega
  have h4 : 8 + k - 4 - 1 - 3 < 21 := by omega
  have h5 : 8 + k - 4 - 1 - 3 = k := by omega
  simp [*]

theorem reservedLow_commandWord (op : BitVec 4) (uc : Bool) (arg : BitVec 21) :
    (commandWord op uc arg).extractLsb' 5 3 = 0#3 := by
  ext k hk
  unfold commandWord
  simp only [BitVec.getElem_extractLsb', BitVec.getLsbD_append]
  have h1 : ¬ 5 + k < 4 := by omega
  have h2 : ¬ 5 + k - 4 < 1 := by omega
  have h3 : 5 + k - 4 - 1 < 3 := by omega
  simp [*]

theorem reservedHigh_commandWord (op : BitVec 4) (uc : Bool) (arg : BitVec 21) :
    (commandWord op uc arg).extractLsb' 29 3 = 0#3 := by
  ext k hk
  unfold commandWord
  simp only [BitVec.getElem_extractLsb', BitVec.getLsbD_append]
  have h1 : ¬ 29 + k < 4 := by omega
  have h2 : ¬ 29 + k - 4 < 1 := by omega
  have h3 : ¬ 29 + k - 4 - 1 < 3 := by omega
  have h4 : ¬ 29 + k - 4 - 1 - 3 < 21 := by omega
  simp [*]

/-- Decoding a word of the template looks at its fields only. -/
theorem decode_commandWord (op : BitVec 4) (uc : Bool) (arg : BitVec 21) :
    decode (commandWord op uc arg) = decodeFields op.toNat uc arg := by
  unfold decode
  rw [reservedLow_commandWord, reservedHigh_commandWord, opOf_commandWord, ucOf_commandWord,
    argOf_commandWord]
  simp

end Sys2Proof

namespace Sys2Proof.Laws

/-- An instruction's word lies in its own row of the command map, under the row's mask (R76). -/
def TableRow.Statement (i : Instr) : Prop :=
  ∃ r, commandMap[rowIndex i]? = some r ∧ encode i &&& r.mask = r.pattern

theorem TableRow.enc : TableRow.Statement .enc := ⟨_, rfl, by decide⟩
theorem TableRow.encC : TableRow.Statement .encC := ⟨_, rfl, by decide⟩
theorem TableRow.dec : TableRow.Statement .dec := ⟨_, rfl, by decide⟩
theorem TableRow.decC : TableRow.Statement .decC := ⟨_, rfl, by decide⟩
theorem TableRow.elen : TableRow.Statement .elen := ⟨_, rfl, by decide⟩
theorem TableRow.compat : TableRow.Statement .compat := ⟨_, rfl, by decide⟩

theorem TableRow.lkc (c : Char21) : TableRow.Statement (.lkc c) := by
  refine ⟨_, rfl, ?_⟩
  apply BitVec.eq_of_getLsbD_eq
  intro k hk
  simp only [encode, commandWord, BitVec.getLsbD_and, BitVec.getLsbD_append]
  interval_cases k <;> simp

theorem TableRow.lkb (b : Byte) : TableRow.Statement (.lkb b) := by
  refine ⟨_, rfl, ?_⟩
  apply BitVec.eq_of_getLsbD_eq
  intro k hk
  simp only [encode, commandWord, BitVec.getLsbD_and, BitVec.getLsbD_append, BitVec.getLsbD_setWidth]
  interval_cases k <;> simp

theorem TableRow.lke (s : Byte) : TableRow.Statement (.lke s) := by
  refine ⟨_, rfl, ?_⟩
  apply BitVec.eq_of_getLsbD_eq
  intro k hk
  simp only [encode, commandWord, BitVec.getLsbD_and, BitVec.getLsbD_append, BitVec.getLsbD_setWidth]
  interval_cases k <;> simp

theorem TableRow.cfgd : TableRow.Statement .cfgd := ⟨_, rfl, by decide⟩
theorem TableRow.cfgs : TableRow.Statement .cfgs := ⟨_, rfl, by decide⟩

end Sys2Proof.Laws
end

