-- ==== Sys2Proof/Laws/Step.lean ====
section
/-! SUPPORT. Everything a step can do. -/

namespace Sys2Proof.Machine

theorem step_of_marked {s : State} {r : Refusal} (h : s.port.refusal = some r) :
    step s = .refused r := by
  simp [step, nextTransaction, h]

theorem step_of_idle {s : State} (h : s.port.refusal = none) (hp : s.port.pending = []) :
    step s = .next s := by
  simp [step, nextTransaction, h, hp]

theorem step_of_pending {s : State} {t : Transaction} {rest : List Transaction}
    (h : s.port.refusal = none) (hp : s.port.pending = t :: rest) :
    step s = perform t (s.withPending rest) := by
  simp [step, nextTransaction, h, hp, State.withPending]

/-- Everything `COMMAND` can do that answers a next state. -/
theorem performCommand_next {w : Word} {p : Payload} {s t : State}
    (h : performCommand w p s = .next t) :
    (∃ i u, decode w = .legal i ∧ exec i (s.withInput p) = .next u ∧
      t = u.respond u.commandResponse) ∨
    (∃ g, decode w = .illegal g ∧ p.length ≤ s.params.inCap ∧
      t = s.illegalVerdict.respond s.illegalVerdict.commandResponse) := by
  unfold performCommand at h
  cases hd : decode w with
  | legal i =>
    simp only [hd] at h
    cases he : exec i (s.withInput p) with
    | next u =>
      simp only [he, respondCommand, Host.Outcome.next.injEq] at h
      exact .inl ⟨i, u, rfl, he, h.symm⟩
    | fault f => cases f
    | refused r => simp [he, respondCommand] at h
  | illegal g =>
    simp only [hd] at h
    by_cases hc : s.overCapacity p = true
    · simp [hc] at h
    · simp only [hc, Bool.false_eq_true, if_false, respondCommand, Host.Outcome.next.injEq] at h
      exact .inr ⟨g, rfl, by simpa [State.overCapacity] using hc, h.symm⟩

/-- Everything a transaction can do that answers a next state. -/
theorem perform_next {x : Transaction} {s t : State} (h : perform x s = .next t) :
    (x = .reset ∧ t = s.resetBlock.respond .nothing) ∨
    (∃ i v u, x = .writeReg i v ∧ s.writeReg i v = .ok u ∧ t = u.respond .nothing) ∨
    (∃ i v, x = .readReg i ∧ s.readReg i = .ok v ∧ t = s.respond (.value v)) ∨
    (∃ w p, x = .command w p ∧ performCommand w p s = .next t) := by
  cases x with
  | reset =>
    simp only [perform, Host.Outcome.next.injEq] at h
    exact .inl ⟨rfl, h.symm⟩
  | writeReg i v =>
    simp only [perform] at h
    cases hw : s.writeReg i v with
    | error r => simp [hw] at h
    | ok u =>
      simp only [hw, Host.Outcome.next.injEq] at h
      exact .inr (.inl ⟨i, v, u, rfl, hw, h.symm⟩)
  | readReg i =>
    simp only [perform] at h
    cases hr : s.readReg i with
    | error r => simp [hr] at h
    | ok v =>
      simp only [hr, Host.Outcome.next.injEq] at h
      exact .inr (.inr (.inl ⟨i, v, rfl, hr, h.symm⟩))
  | command w p => exact .inr (.inr (.inr ⟨w, p, rfl, h⟩))

/-- Everything a register write can do: the writable bits of the register it names (R221). -/
theorem writeReg_ok {s u : State} {i : Nat} {v : Word} (h : s.writeReg i v = .ok u) :
    (i = 0 ∧ u = { s with cfg := (v.extractLsb' 0 2).setWidth 32 }) ∨
    (i = 1 ∧ isScalar (v.extractLsb' 0 21) = true ∧
      u = { s with repl := (v.extractLsb' 0 21).setWidth 32 }) ∨
    (i = 2 ∧ u = { s with maxlen := s.params.lenWord v.toNat }) ∨
    (3 ≤ i ∧ i ≤ 7 ∧ u = s) := by
  unfold State.writeReg at h
  split at h
  · simp only [Except.ok.injEq] at h
    exact .inl ⟨rfl, h.symm⟩
  · split at h
    · rename_i hs
      simp only [Except.ok.injEq] at h
      exact .inr (.inl ⟨rfl, hs, h.symm⟩)
    · cases h
  · simp only [Except.ok.injEq] at h
    exact .inr (.inr (.inl ⟨rfl, h.symm⟩))
  all_goals first
    | (simp only [Except.ok.injEq] at h
       exact .inr (.inr (.inr ⟨by omega, by omega, h.symm⟩)))
    | cases h

/-- A register write leaves the host port, the tables and the parameters as they are. -/
theorem writeReg_port {s u : State} {i : Nat} {v : Word} (h : s.writeReg i v = .ok u) :
    u.port = s.port ∧ u.tables = s.tables ∧ u.params = s.params := by
  obtain ⟨-, rfl⟩ | ⟨-, -, rfl⟩ | ⟨-, rfl⟩ | ⟨-, -, rfl⟩ := writeReg_ok h <;> exact ⟨rfl, rfl, rfl⟩

/-- A transaction leaves the transactions still to be issued, the mark and the parameters as they are. -/
theorem perform_port {x : Transaction} {s t : State} (h : perform x s = .next t) :
    t.port.pending = s.port.pending ∧ t.port.refusal = s.port.refusal ∧ t.params = s.params := by
  obtain ⟨rfl, rfl⟩ | ⟨i, v, u, rfl, hw, rfl⟩ | ⟨i, v, rfl, hr, rfl⟩ | ⟨w, p, rfl, hc⟩ :=
    perform_next h
  · exact ⟨rfl, rfl, rfl⟩
  · obtain ⟨hp, -, hc⟩ := writeReg_port hw
    simp [hp, hc]
  · exact ⟨rfl, rfl, rfl⟩
  · obtain ⟨i, u, -, he, rfl⟩ | ⟨g, -, -, rfl⟩ := performCommand_next hc
    · obtain ⟨hp, -, hc⟩ := exec_port he
      simp [hp, hc]
    · exact ⟨rfl, rfl, rfl⟩

theorem writeReg_withPending (s : State) (i : Nat) (v : Word) (ts : List Transaction) :
    (s.withPending ts).writeReg i v =
      match s.writeReg i v with
      | .ok u => .ok (u.withPending ts)
      | .error r => .error r := by
  match i with
  | 0 => rfl
  | 1 => simp only [State.writeReg]; split <;> rfl
  | 2 => rfl
  | 3 => rfl
  | 4 => rfl
  | 5 => rfl
  | 6 => rfl
  | 7 => rfl
  | k + 8 => rfl

/-- A transaction does not read the transactions still to be issued. -/
theorem perform_withPending (x : Transaction) (s : State) (ts : List Transaction) :
    perform x (s.withPending ts) =
      match perform x s with
      | .next t => .next (t.withPending ts)
      | .fault f => .fault f
      | .refused r => .refused r := by
  cases x with
  | reset => rfl
  | writeReg i v =>
    simp only [perform, writeReg_withPending]
    cases s.writeReg i v <;> rfl
  | readReg i =>
    have h : (s.withPending ts).readReg i = s.readReg i := by
      unfold State.readReg
      split <;> rfl
    simp only [perform, h]
    cases s.readReg i <;> rfl
  | command w p =>
    simp only [perform, performCommand]
    cases hd : decode w with
    | illegal g =>
      have h : (s.withPending ts).overCapacity p = s.overCapacity p := rfl
      simp only [h]
      split <;> rfl
    | legal i =>
      have hs : SameInputs (s.withInput p) ((s.withPending ts).withInput p) :=
        ⟨rfl, rfl, rfl, rfl, rfl, rfl⟩
      simp only [hs.exec]
      cases he : exec i (s.withInput p) with
      | next t =>
        obtain ⟨hp, -, -⟩ := exec_port he
        simp [withPortOf, respondCommand, State.respond, State.withPending, State.commandResponse, hp,
          State.withInput]
      | fault f => rfl
      | refused r => rfl

/-- Everything a step can do that answers a next state. -/
theorem step_next {s t : State} (h : step s = .next t) :
    s.port.refusal = none ∧
    ((s.port.pending = [] ∧ t = s) ∨
     ∃ x rest, s.port.pending = x :: rest ∧ perform x (s.withPending rest) = .next t) := by
  cases hr : s.port.refusal with
  | some r =>
    rw [step_of_marked hr] at h
    cases h
  | none =>
    refine ⟨rfl, ?_⟩
    cases hp : s.port.pending with
    | nil =>
      rw [step_of_idle hr hp, Host.Outcome.next.injEq] at h
      exact .inl ⟨rfl, h.symm⟩
    | cons x rest =>
      rw [step_of_pending hr hp] at h
      exact .inr ⟨x, rest, rfl, h⟩

end Sys2Proof.Machine
end

