-- ==== Sys2Proof/Laws/Tables.lean ====
section
/-! SUPPORT. The inverse index R105 builds, and the tables of this hardware. -/

namespace Sys2Proof.Machine

theorem lookup_insertIfAbsent (m : InverseIndex) (c : Char21) (k : Code) (x : Char21) :
    (insertIfAbsent m c k).lookup x =
      if m.lookup x = none ∧ x = c then some k else m.lookup x := by
  unfold insertIfAbsent
  by_cases hx : x = c
  · subst hx
    cases h : m.lookup x <;> simp [h, List.lookup]
  · have hb : (x == c) = false := by simpa using hx
    cases h : m.lookup c <;> simp [hx, List.lookup, hb]

/-- The first loop keeps what is present and gives a new character its lowest slot. -/
theorem lookup_addBase (base : List (Option Char21)) (b : Nat) (m : InverseIndex) (x : Char21) :
    (addBase b base m).lookup x =
      match m.lookup x with
      | some k => some k
      | none => (base.findIdx? (· = some x)).map fun n => .single (BitVec.ofNat 8 (b + n)) := by
  induction base generalizing b m with
  | nil => unfold addBase; cases h : m.lookup x <;> simp
  | cons o rest ih =>
    cases o with
    | none =>
      rw [addBase, ih]
      cases h : m.lookup x with
      | some k => rfl
      | none =>
        simp only [List.findIdx?_cons, reduceCtorEq, decide_false, Bool.false_eq_true, if_false,
          Option.map_map]
        congr 1
        funext n
        simp only [Function.comp_apply]
        congr 2
        omega
    | some c =>
      rw [addBase, ih, lookup_insertIfAbsent]
      by_cases hx : x = c
      · subst hx
        cases h : m.lookup x <;> simp [List.findIdx?_cons]
      · have hc : ¬ c = x := fun h => hx h.symm
        simp only [hx, and_false, if_false]
        cases h : m.lookup x with
        | some k => rfl
        | none =>
          simp only [List.findIdx?_cons, Option.some.injEq, hc, decide_false, Bool.false_eq_true,
            if_false, Option.map_map]
          congr 1
          funext n
          simp only [Function.comp_apply]
          congr 2
          omega

/-- The second loop keeps what is present and gives a new character its first suffix. -/
theorem lookup_addExt (ext : List (Byte × Char21)) (m : InverseIndex) (x : Char21) :
    (addExt ext m).lookup x =
      match m.lookup x with
      | some k => some k
      | none => (ext.find? (·.2 = x)).map fun e => .escape e.1 := by
  induction ext generalizing m with
  | nil => unfold addExt; cases h : m.lookup x <;> simp
  | cons e rest ih =>
    obtain ⟨s, c⟩ := e
    rw [addExt, ih, lookup_insertIfAbsent]
    by_cases hx : x = c
    · subst hx
      cases h : m.lookup x <;> simp
    · have hc : ¬ c = x := fun h => hx h.symm
      simp only [hx, and_false, if_false]
      cases h : m.lookup x <;> simp [hc]

set_option maxRecDepth 4000 in
/-- `BASE_TABLE` as R102 lists it has `BASE_SIZE` slots and holds `CEDILLA_09` at slot 0x09. -/
theorem baseOf_hwParams : baseOf hwParams = baseTable := by decide +kernel

/-- `BASE[0x1B] = none`, for every value of the parameters (R101). -/
@[simp] theorem ofParameters_baseAt_escape (P : BlockParams) :
    (Tables.ofParameters P).baseAt 0x1B#8 = none := by
  show ((baseOf P)[0x1B]?).getD none = none
  rw [baseOf, List.getElem?_set, if_pos rfl]
  split <;> rfl

theorem hwParams_extTable : hwParams.extTable = extTable := rfl

/-- The index as data, newest entry first, without the loops: for the tables of this hardware, whose
characters are all different, it is what R105 builds (`hwTables_inv`). -/
def flatInv (base : List (Option Char21)) (ext : List (Byte × Char21)) : InverseIndex :=
  (ext.reverse.map fun e => (e.2, Code.escape e.1)) ++
    (base.zipIdx.reverse.filterMap fun p => p.1.map fun c => (c, Code.single (BitVec.ofNat 8 p.2)))

set_option maxRecDepth 4000 in
theorem hwTables_inv : hwTables.inv = flatInv baseTable extTable := by decide +kernel

set_option maxRecDepth 4000 in
/-- The tables of this hardware meet R107 ("With the defaults they hold"). -/
theorem hwTables_wf : TablesWf hwTables where
  size := by decide +kernel
  escSlotEmpty := by decide +kernel
  baseScalar := by
    have h : (hwTables.base.all fun o => (o.map isScalar).getD true) = true := by decide +kernel
    intro c hc
    exact List.all_eq_true.1 h (some c) hc
  baseInjective := by decide +kernel
  extScalar := by
    have h : (hwTables.ext.all fun e => isScalar e.2) = true := by decide +kernel
    exact fun e he => List.all_eq_true.1 h e he
  extAscending := by decide +kernel
  extInjective := by decide +kernel
  disjoint := by
    have h : (hwTables.ext.all fun e => !(hwTables.base.contains (some e.2))) = true := by
      decide +kernel
    intro e he hm
    have := List.all_eq_true.1 h e he
    simp [hm] at this
  escNoKey := by
    have h : (hwTables.ext.all fun e => decide (e.1 ≠ 0x1B#8)) = true := by decide +kernel
    exact fun e he => by simpa using List.all_eq_true.1 h e he
  inverse := by simp only [hwTables, Tables.ofParameters]

/-- Every suffix of the default extension table has bit 7 = 0 (R70). -/
theorem hwTables_sevenBit : SevenBitSuffixes hwTables := by
  have h : (hwTables.ext.all fun e => decide (e.1.toNat < 0x80)) = true := by decide +kernel
  exact fun e he => by simpa using List.all_eq_true.1 h e he

end Sys2Proof.Machine
end

