-- ==== Sys2Proof/Tests/Slice0.lean ====
section
/-! SUPPORT. Tests: the well-formedness check refuses ill-formed terms; command words written out from
the template of R74 decode; one step per vector of spec/95_test_vectors.md; and for each statement with
hypotheses a witness that meets them. Expected results come from the spec's vectors, named in each test. -/

-- One theorem after another: each of these evaluations waits for the kernel, and a waiting theorem keeps
-- a thread and its stack.
set_option Elab.async false

namespace Sys2Proof.Machine

/-! ### WellFormed: a surrogate, the surrogates' last, and one above the last scalar value (R7, R76) -/

theorem test_wellFormed_refuses_first_surrogate : (Instr.lkc 0xD800#21).wellFormed = false := by decide
theorem test_wellFormed_refuses_last_surrogate : (Instr.lkc 0xDFFF#21).wellFormed = false := by decide
theorem test_wellFormed_refuses_above_range : (Instr.lkc 0x110000#21).wellFormed = false := by decide
theorem test_wellFormed_admits_boundaries :
    (Instr.lkc 0xD7FF#21).wellFormed = true ∧ (Instr.lkc 0xE000#21).wellFormed = true ∧
    (Instr.lkc 0x10FFFF#21).wellFormed = true := by decide

/-! ### Decode: words from the template `000A_AAAA_AAAA_AAAA_AAAA_AAAA_000U_OOOO` (R74, R76) -/

theorem test_decode_enc : decode 0b00000000000000000000000000000001#32 = .legal .enc := by decide
theorem test_decode_encC : decode 0b00000000000000000000000000010001#32 = .legal .encC := by decide
theorem test_decode_dec : decode 0b00000000000000000000000000000010#32 = .legal .dec := by decide
theorem test_decode_decC : decode 0b00000000000000000000000000010010#32 = .legal .decC := by decide
theorem test_decode_elen : decode 0b00000000000000000000000000000011#32 = .legal .elen := by decide
theorem test_decode_compat : decode 0b00000000000000000000000000000100#32 = .legal .compat := by decide

/-- U+20AC in `ARG` (V4: 0x0020AC05). -/
theorem test_decode_lkc : decode 0b00000000001000001010110000000101#32 = .legal (.lkc 0x20AC#21) := by
  decide

/-- U+10FFFF in `ARG` (V10: 0x10FFFF05), the highest operand. -/
theorem test_decode_lkc_top :
    decode 0b00010000111111111111111100000101#32 = .legal (.lkc 0x10FFFF#21) := by decide

/-- Byte 0x41 (R110: 0x00004106). -/
theorem test_decode_lkb : decode 0b00000000000000000100000100000110#32 = .legal (.lkb 0x41#8) := by
  decide

/-- Byte 0x65 (R111: 0x00006507). -/
theorem test_decode_lke : decode 0b00000000000000000110010100000111#32 = .legal (.lke 0x65#8) := by
  decide

theorem test_decode_cfgd : decode 0b00000000000000000000000000001000#32 = .legal .cfgd := by decide
theorem test_decode_cfgs : decode 0b00000000000000000000000000001001#32 = .legal .cfgs := by decide

/-- V11, V12, V19, V100, V101, V120, V122, V123, V124, V125: illegal words, each on its ground. -/
theorem test_decode_illegal :
    decode 0x00D80005#32 = .illegal .notScalar ∧ decode 0x11000005#32 = .illegal .notScalar ∧
    decode 0x00010006#32 = .illegal .argumentHigh ∧ decode 0x00000013#32 = .illegal .useConfig ∧
    decode 0x00000014#32 = .illegal .useConfig ∧ decode 0x00000000#32 = .illegal .operation ∧
    decode 0x0000000A#32 = .illegal .operation ∧ decode 0x0000000F#32 = .illegal .operation ∧
    decode 0x00000021#32 = .illegal .reservedLow ∧ decode 0x20000001#32 = .illegal .reservedHigh ∧
    decode 0x00000101#32 = .illegal .argument ∧ decode 0x00000015#32 = .illegal .useConfig := by decide

theorem test_decodeTableWord :
    decodeTableWord 32 0x12 = some .decC ∧ decodeTableWord 32 0x18 = none := by decide

/-! ### One step per vector -/

/-- The tables of this hardware with the index as flat data: `testTables_eq` says they are the same. -/
def testTables : Tables := { base := baseTable, ext := extTable, inv := flatInv baseTable extTable }

theorem testTables_eq : testTables = hwTables := by
  have h : hwTables =
      { base := baseOf hwParams, ext := hwParams.extTable, inv := hwTables.inv } := by
    simp only [hwTables, Tables.ofParameters]
  rw [h, hwTables_inv, baseOf_hwParams, hwParams_extTable, testTables]

/-- The state after reset with `CFG`, `REPL`, `MAXLEN` written. -/
def testState (cfg repl maxlen : Word) : State :=
  { State.reset with cfg := cfg, repl := repl, maxlen := maxlen, tables := testTables }

/-- The response to one transaction. -/
def respondTo (s : State) (t : Transaction) : Option Response :=
  match step (s.withPending [t]) with
  | .next u => some u.port.response
  | .fault f => nomatch f
  | .refused _ => none

/-- The refusal of one transaction. -/
def refusalOf (s : State) (t : Transaction) : Option Refusal :=
  match step (s.withPending [t]) with
  | .next _ => none
  | .fault f => nomatch f
  | .refused r => some r

/-- V34: `ENC, "a🦀"`. -/
theorem test_enc_substitutes_space :
    respondTo (testState 0 0xFFFD 0) (.command 0x01#32 (.ofText [0x61#21, 0x1F980#21])) =
      some (.command 0x01#32 0#32 2#32 (.ofBytes [0x61#8, 0x20#8])) := by decide +kernel

/-- V49: `ENC, "🦀"` after `WR CFG, 1`: the registers are ignored. -/
theorem test_enc_ignores_strict :
    respondTo (testState 1 0xFFFD 0) (.command 0x01#32 (.ofText [0x1F980#21])) =
      some (.command 0x01#32 0#32 1#32 (.ofBytes [0x20#8])) := by decide +kernel

/-- V35: `ENC.C, "a🦀"` with `REPL = U+20AC`. -/
theorem test_encC_substitutes_escape :
    respondTo (testState 0 0x20AC 0) (.command 0x11#32 (.ofText [0x61#21, 0x1F980#21])) =
      some (.command 0x01#32 0#32 3#32 (.ofBytes [0x61#8, 0x1B#8, 0x65#8])) := by decide +kernel

/-- V46: strict `ENC.C, "a🦀b😀"`: the first unmapped character wins. -/
theorem test_encC_strict_first_unmapped :
    respondTo (testState 1 0xFFFD 0)
        (.command 0x11#32 (.ofText [0x61#21, 0x1F980#21, 0x62#21, 0x1F600#21])) =
      some (.command 0x07#32 0x1F980#32 0#32 .empty) := by decide +kernel

/-- W6: `DEC, [41 1B]`. -/
theorem test_dec_trailing_escape :
    respondTo (testState 1 0xFFFD 0) (.command 0x02#32 (.ofBytes [0x41#8, 0x1B#8])) =
      some (.command 0x01#32 0#32 2#32 (.ofText [0x41#21, 0xFFFD#21])) := by decide +kernel

/-- R173: `DEC, [48 69 1B 65]`. -/
theorem test_dec_escape_pair :
    respondTo (testState 0 0x3F 1) (.command 0x02#32 (.ofBytes [0x48#8, 0x69#8, 0x1B#8, 0x65#8])) =
      some (.command 0x01#32 0#32 3#32 (.ofText [0x48#21, 0x69#21, 0x20AC#21])) := by decide +kernel

/-- V66: strict `DEC.C, [1B 80]`. -/
theorem test_decC_high_suffix :
    respondTo (testState 1 0xFFFD 0) (.command 0x12#32 (.ofBytes [0x1B#8, 0x80#8])) =
      some (.command 0x0B#32 0x80#32 0#32 .empty) := by decide +kernel

/-- V65: `DEC.C, [1B 1B 28]` with `REPL = U+003F`: the second `1B` is a suffix. -/
theorem test_decC_escape_is_a_suffix :
    respondTo (testState 0 0x3F 0) (.command 0x12#32 (.ofBytes [0x1B#8, 0x1B#8, 0x28#8])) =
      some (.command 0x01#32 0#32 2#32 (.ofText [0x3F#21, 0x28#21])) := by decide +kernel

/-- V92: `ELEN, "{x}"`. -/
theorem test_elen_counts_escapes :
    respondTo (testState 0 0xFFFD 1) (.command 0x03#32 (.ofText [0x7B#21, 0x78#21, 0x7D#21])) =
      some (.command 0x01#32 0#32 5#32 .empty) := by decide +kernel

/-- V94: `ELEN, "a🦀"`: strict semantics even with `CFG = 0`. -/
theorem test_elen_is_strict :
    respondTo (testState 0 0xFFFD 0) (.command 0x03#32 (.ofText [0x61#21, 0x1F980#21])) =
      some (.command 0x07#32 0x1F980#32 0#32 .empty) := by decide +kernel

/-- V97: `COMPAT, "a🦀"`. -/
theorem test_compat_false :
    respondTo (testState 0 0xFFFD 0) (.command 0x04#32 (.ofText [0x61#21, 0x1F980#21])) =
      some (.command 0x01#32 0#32 0#32 .empty) := by decide +kernel

/-- V98: `COMPAT, "\u000C"`. -/
theorem test_compat_form_feed :
    respondTo (testState 0 0xFFFD 0) (.command 0x04#32 (.ofText [0x0C#21])) =
      some (.command 0x01#32 0#32 1#32 .empty) := by decide +kernel

/-- V3: `LKC` of a left brace. -/
theorem test_lkc_escape :
    respondTo (testState 0 0xFFFD 0) (.command 0x00007B05#32 .empty) =
      some (.command 0x01#32 0#32 0x328#32 .empty) := by decide +kernel

/-- V2: `LKC '@'`: present, byte 0x00. -/
theorem test_lkc_present_zero :
    respondTo (testState 0 0xFFFD 0) (.command 0x00004005#32 .empty) =
      some (.command 0x01#32 0#32 0x100#32 .empty) := by decide +kernel

/-- V15: `LKB 0x09`. -/
theorem test_lkb_cedilla :
    respondTo (testState 0 0xFFFD 0) (.command 0x00000906#32 .empty) =
      some (.command 0x01#32 0#32 0x2000C7#32 .empty) := by decide +kernel

/-- V17: `LKB 0x80`. -/
theorem test_lkb_high_byte :
    respondTo (testState 0 0xFFFD 0) (.command 0x00008006#32 .empty) =
      some (.command 0x01#32 0#32 0#32 .empty) := by decide +kernel

/-- V21: `LKE 0x0A` is FORM FEED. -/
theorem test_lke_form_feed :
    respondTo (testState 0 0xFFFD 0) (.command 0x00000A07#32 .empty) =
      some (.command 0x01#32 0#32 0x20000C#32 .empty) := by decide +kernel

/-- V23: `LKE 0x1B`. -/
theorem test_lke_no_key :
    respondTo (testState 0 0xFFFD 0) (.command 0x00001B07#32 .empty) =
      some (.command 0x01#32 0#32 0#32 .empty) := by decide +kernel

/-- V117: `WR CFG, 3`; `CMD CFGD`. -/
theorem test_cfgd :
    (match exec .cfgd (testState 3 0x3F 9) with
     | .next t => some (t.status, t.cfg, t.repl, t.maxlen)
     | _ => none) = some (0x01#32, 0#32, 0xFFFD#32, 0#32) := by decide +kernel

/-- V118: `WR REPL, 0x3F`; `WR MAXLEN, 9`; `CMD CFGS`. -/
theorem test_cfgs :
    (match exec .cfgs (testState 2 0x3F 9) with
     | .next t => some (t.status, t.cfg, t.repl, t.maxlen)
     | _ => none) = some (0x01#32, 1#32, 0xFFFD#32, 0#32) := by decide +kernel

/-- V126: word 0x00000019, an illegal word. -/
theorem test_illegal_word :
    respondTo (testState 3 0x3F 9) (.command 0x19#32 (.ofBytes [0x41#8])) =
      some (.command 0x21#32 0#32 0#32 .empty) := by decide +kernel

/-- V32, V76: the length limit in both units, before anything else. -/
theorem test_length_limit :
    respondTo (testState 1 0xFFFD 2) (.command 0x11#32 (.ofText [0x48#21, 0x69#21, 0x20AC#21])) =
      some (.command 0x53#32 0#32 0#32 .empty) ∧
    respondTo (testState 0 0xFFFD 1) (.command 0x12#32 (.ofBytes [0x41#8, 0x1B#8])) =
      some (.command 0x53#32 0#32 0#32 .empty) := by decide +kernel

/-- V71: strict `DEC.C, [1B]`. -/
theorem test_escape_at_end :
    respondTo (testState 1 0xFFFD 0) (.command 0x12#32 (.ofBytes [0x1B#8])) =
      some (.command 0x93#32 0#32 0#32 .empty) := by decide +kernel

/-- The parameter vector of 95_test_vectors.md: with `BASE[0x60] = none`, strict `DEC.C, [60]`. -/
theorem test_invalid_byte_with_other_table :
    respondTo
        { testState 1 0xFFFD 0 with tables := { testTables with base := baseTable.set 0x60 none } }
        (.command 0x12#32 (.ofBytes [0x60#8])) =
      some (.command 0x0F#32 0x60#32 0#32 .empty) := by decide +kernel

/-- R169: the alternative readings of the validation pass. -/
theorem test_validation_alternatives :
    decodeBytes { hw with validateMode := .strictAlways } testTables [0x1B#8, 0x41#8]
        { strict := false, repl := 0x3F#21, max := 0, validate := true } =
      .err (.invalidEscapeSequence 0x41#8) ∧
    decodeBytes { hw with valHighStrict := true } testTables [0x80#8]
        { strict := true, repl := 0x3F#21, max := 0, validate := true } =
      .err (.invalidByte 0x80#8) ∧
    decodeBytes hw testTables [0x80#8]
        { strict := true, repl := 0x3F#21, max := 0, validate := true } = .ok [0x3F#21] := by
  decide +kernel

/-- R6, R169: the parameters are the block's own. With `CEDILLA_09` = U+00E7, `DEFAULT_REPL` = U+003F and
`VALIDATE_MODE` = StrictAlways, `RESET` puts those; `DEC.C` with `VALIDATE` then fails in non-strict mode. -/
theorem test_parameters :
    let s : State :=
      { testState 0 0xFFFD 0 with
        params := { hwParams with
          cedilla09 := 0xE7#21
          codec := { hw with defaultRepl := 0x3F#21, validateMode := .strictAlways } } }
    (s.issue .reset).repl = 0x3F#32 ∧ (s.issue .reset).tables.baseAt 0x09#8 = some 0xE7#21 ∧
    (s.hostRun [.writeReg 0 2#32, .command 0x12#32 (.ofBytes [0x1B#8, 0x41#8])]).status = 0x0B#32 := by
  decide +kernel

/-- R101: with a `BASE_TABLE` that holds a character at 0x1B, `LKB 0x1B` after `RESET` is 0 nevertheless. -/
theorem test_escape_slot :
    (({ testState 0 0xFFFD 0 with
        params := { hwParams with baseTable := baseTable.set 0x1B (some 0x3F#21) } } : State).hostRun
      [.reset, .command 0x00001B06#32 .empty]).port.response =
      .command 0x01#32 0#32 0#32 .empty := by decide +kernel

/-- V111, V112, V114: reserved bits and read-only registers. -/
theorem test_writeReg :
    (State.reset.issue (.writeReg 0 0xFFFFFFFF#32)).cfg = 3#32 ∧
    (State.reset.issue (.writeReg 1 0xFFE0003F#32)).repl = 0x3F#32 ∧
    (State.reset.issue (.writeReg 3 5#32)).status = 0#32 := by decide +kernel

/-- V110, V115: register reads after reset. -/
theorem test_readReg :
    respondTo State.reset (.readReg 1) = some (.value 0xFFFD#32) ∧
    respondTo State.reset (.readReg 7) = some (.value 0#32) := by decide +kernel

/-- V113, V116, V127, V128 and R251 F4, F1: the refusals. -/
theorem test_refusals :
    refusalOf State.reset (.writeReg 1 0xD800#32) = some .replNotScalar ∧
    refusalOf State.reset (.readReg 8) = some .registerIndex ∧
    refusalOf State.reset (.command 0x4106#32 (.ofBytes [0x41#8])) = some .payloadNotEmpty ∧
    refusalOf State.reset (.command 0x01#32 (.ofText [0xD800#21])) = some .payloadNotScalar ∧
    refusalOf State.reset (.command 0x01#32 (.ofBytes [0x41#8])) = some .payloadType ∧
    refusalOf State.reset (.command 0x02#32 (.ofText [0x41#21])) = some .payloadType ∧
    refusalOf { State.reset with params := { hwParams with inCap := 1 } }
        (.command 0x02#32 (.ofBytes [0x41#8, 0x42#8])) =
      some .payloadTooLong := by decide +kernel

/-- R251, R270: the mark stays, under `RESET` too. -/
theorem test_refusal_mark :
    (State.reset.hostRun [.readReg 8, .reset]).port.refusal = some .registerIndex := by decide +kernel

/-! ### Notation (R82-R84) -/

/-- Lines of P1, P2 and P5: `CMD LKC '€'`, `WR  MAXLEN, 3`, `STRICT`, and a byte list. -/
theorem test_assembleLine :
    assembleLine ['C', 'M', 'D', ' ', 'L', 'K', 'C', ' ', '\'', '€', '\'', ' ', ';', ' ', 'x'] =
      some [.command 0x0020AC05#32 .empty] ∧
    assembleLine ['W', 'R', ' ', ' ', 'M', 'A', 'X', 'L', 'E', 'N', ',', ' ', '3'] =
      some [.writeReg 2 3#32] ∧
    assembleLine ['S', 'T', 'R', 'I', 'C', 'T'] = some [.command 0x09#32 .empty] ∧
    assembleLine ['C', 'M', 'D', ' ', 'D', 'E', 'C', ',', ' ', '[', '0', 'x', '4', '1', ',', ' ', '0',
        'x', '1', 'B', ']'] = some [.command 0x02#32 (.ofBytes [0x41#8, 0x1B#8])] := by decide +kernel

/-- R84: the printed form of a lookup and of an illegal word, and a line assembled back. -/
theorem test_printWord :
    printWord 0x01F98005#32 = ['L', 'K', 'C', ' ', 'U', '+', '1', 'F', '9', '8', '0'] ∧
    printWord 0x00001B06#32 = ['L', 'K', 'B', ' ', '0', 'x', '1', 'B'] ∧
    printWord 0x0000000F#32 =
      ['.', 'w', 'o', 'r', 'd', ' ', '0', 'x', '0', '0', '0', '0', '0', '0', '0', 'F'] ∧
    assembleLine (printLine 0x10FFFF05#32) = some [.command 0x10FFFF05#32 .empty] := by decide +kernel

/-! ### Witnesses: the hypotheses of each statement can be met together -/

/-- An unmarked state with one transaction pending. -/
theorem witness_pending (t : Transaction) :
    (State.reset.withPending [t]).port.refusal = none ∧
    (State.reset.withPending [t]).port.pending = t :: [] := ⟨rfl, rfl⟩

theorem witness_ResetTransactionRestoresEveryComponent :
    ∃ (s : State) (rest : List Transaction),
      s.port.refusal = none ∧ s.port.pending = .reset :: rest :=
  ⟨_, [], witness_pending .reset⟩

/-- Each clause of WriteRegisterEffect at its boundaries. -/
theorem witness_WriteRegisterEffect :
    (∀ i v, ∃ (s : State) (rest : List Transaction), s.OfHardware ∧
      s.port.refusal = none ∧ s.port.pending = .writeReg i v :: rest) ∧
    isScalar ((0x10FFFF#32).extractLsb' 0 21) = true ∧
    isScalar ((0xD800#32).extractLsb' 0 21) = false ∧ isScalar ((0x110000#32).extractLsb' 0 21) = false ∧
    (3 ≤ 3 ∧ 3 ≤ 7) ∧ (3 ≤ 7 ∧ 7 ≤ 7) ∧ 8 ≤ 8 :=
  ⟨fun i v => ⟨State.reset.withPending [.writeReg i v], [], ⟨_, rfl⟩, rfl, rfl⟩, by decide⟩

/-- Every index of ReadRegisterReturns, the last clause's first index among them. -/
theorem witness_ReadRegisterReturns :
    ∀ i, ∃ (s : State) (rest : List Transaction),
      s.port.refusal = none ∧ s.port.pending = .readReg i :: rest :=
  fun i => ⟨_, [], witness_pending (.readReg i)⟩

/-- A command that answers a next state, and one that is refused. -/
theorem witness_StepRunsTheDecodedCommand :
    (∃ (s t : State), s.port.refusal = none ∧ s.port.pending = .command 0x09#32 .empty :: [] ∧
      decode 0x09#32 = .legal .cfgs ∧
      exec .cfgs { s with port := { s.port with pending := [], input := .empty } } = .next t) ∧
    (∃ (s : State) (r : Refusal),
      s.port.refusal = none ∧ s.port.pending = .command 0x09#32 (.ofBytes [0x41#8]) :: [] ∧
      decode 0x09#32 = .legal .cfgs ∧
      exec .cfgs { s with port := { s.port with pending := [], input := .ofBytes [0x41#8] } } =
        .refused r) :=
  ⟨⟨State.reset.withPending [.command 0x09#32 .empty], _, rfl, rfl, by decide, rfl⟩,
   ⟨State.reset.withPending [.command 0x09#32 (.ofBytes [0x41#8])], .payloadNotEmpty, rfl, rfl,
    by decide, rfl⟩⟩

theorem witness_FetchWordRunsNext :
    ∃ (s t : State), s.port.refusal = none ∧ decodeTableWord 32 0x08 = some .cfgd ∧
      exec .cfgd { s with port := { s.port with input := .empty } } = .next t :=
  ⟨State.reset, _, rfl, by decide, rfl⟩

theorem witness_IdleBlockStays :
    ∃ s : State, s.port.refusal = none ∧ s.port.pending = [] := ⟨State.reset, rfl, rfl⟩

theorem witness_IllegalWordVerdict :
    ∃ (s : State) (w : Word) (p : Payload) (rest : List Transaction) (g : IllegalGround),
      s.port.refusal = none ∧ s.port.pending = .command w p :: rest ∧ decode w = .illegal g ∧
      p.length ≤ s.params.inCap :=
  ⟨State.reset.withPending [.command 0x0F#32 (.ofBytes [0x41#8])], 0x0F#32, .ofBytes [0x41#8], [],
   .operation, rfl, rfl, by decide, by
    simp [State.withPending, State.reset, State.resetOf, hwParams, Payload.ofBytes, Payload.length,
      Config.inCapMax]⟩

theorem witness_CommandRespondsWithItsResult :
    ∃ (s t : State) (w : Word) (p : Payload) (rest : List Transaction),
      s.port.pending = .command w p :: rest ∧ step s = .next t :=
  ⟨State.reset.withPending [.command 0x09#32 .empty], _, 0x09#32, .empty, [], rfl, rfl⟩

/-- The operands of DecodeOfEncode at the highest scalar value. -/
theorem witness_DecodeOfEncode : (Instr.lkc 0x10FFFF#21).wellFormed = true := by decide

theorem witness_PrintedLegalWordsAssembleBack : decode 0x0000FF07#32 = .legal (.lke 0xFF#8) := by decide

theorem witness_EncodeOfDecode : decode 0x10FFFF05#32 = .legal (.lkc 0x10FFFF#21) := by decide

/-- The text input `text` in a state with the given registers. -/
theorem witness_text (cfg repl maxlen : Word) (text : List Char21) (hl : text.length ≤ 0x7FFFFFFF)
    (hs : text.all isScalar = true) :
    TextInput ((testState cfg repl maxlen).withInput (.ofText text)) text :=
  ⟨rfl, hl, List.all_eq_true.mp hs⟩

theorem witness_bytes (cfg repl maxlen : Word) (bytes : List Byte) (hl : bytes.length ≤ 0x7FFFFFFF) :
    ByteInput ((testState cfg repl maxlen).withInput (.ofBytes bytes)) bytes := ⟨rfl, hl⟩

theorem witness_EncCompletes : ∃ (s : State) (text : List Char21), TextInput s text ∧ s.OfHardware ∧ text ≠ [] :=
  ⟨_, _, witness_text 0 0xFFFD 0 [0x61#21, 0x1F980#21] (by simp) (by decide), ⟨_, rfl⟩, by decide⟩

/-- Both sides of the length clause: no limit, and a length equal to the limit. -/
theorem witness_EncCLenientCompletes :
    (∃ (s : State) (text : List Char21), TextInput s text ∧ s.OfHardware ∧ s.cfg.getLsbD 0 = false ∧
      s.maxlen = 0#32) ∧
    (∃ (s : State) (text : List Char21), TextInput s text ∧ s.OfHardware ∧ s.cfg.getLsbD 0 = false ∧
      s.maxlen ≠ 0#32 ∧ text.length = s.maxlen.toNat) :=
  ⟨⟨_, _, witness_text 0 0x3F 0 [0x1F980#21] (by simp) (by decide), ⟨_, rfl⟩, by decide, by decide⟩,
   ⟨_, _, witness_text 0 0x3F 1 [0x1F980#21] (by simp) (by decide), ⟨_, rfl⟩, by decide, by decide, by decide⟩⟩

theorem witness_EncCMappedCompletes :
    ∃ (s : State) (text : List Char21), TextInput s text ∧ s.OfHardware ∧ (∀ c ∈ text, s.tables.mapped c) ∧
      text.length = s.maxlen.toNat ∧ text ≠ [] := by
  refine ⟨_, _, witness_text 1 0x3F 2 [0x61#21, 0x20AC#21] (by simp) (by decide), ⟨_, rfl⟩, ?_, by decide,
    by decide⟩
  have h1 : testTables.invAt 0x61#21 ≠ none := by decide +kernel
  have h2 : testTables.invAt 0x20AC#21 ≠ none := by decide +kernel
  intro c hc
  simp only [List.mem_cons, List.not_mem_nil, or_false] at hc
  rcases hc with rfl | rfl
  · exact h1
  · exact h2

theorem witness_EncCStrictReportsFirstUnmapped :
    ∃ (s : State) (before after : List Char21) (c : Char21),
      TextInput s (before ++ c :: after) ∧ s.OfHardware ∧ s.cfg.getLsbD 0 = true ∧
      (before ++ c :: after).length = s.maxlen.toNat ∧
      (∀ x ∈ before, s.tables.mapped x) ∧ ¬ s.tables.mapped c := by
  refine ⟨_, [0x61#21], [0x62#21], 0x1F980#21,
    witness_text 1 0x3F 3 ([0x61#21] ++ 0x1F980#21 :: [0x62#21]) (by simp) (by decide), ⟨_, rfl⟩, by decide,
    by decide, ?_, ?_⟩
  · have h1 : testTables.invAt 0x61#21 ≠ none := by decide +kernel
    intro c hc
    simp only [List.mem_singleton] at hc
    subst hc
    exact h1
  · have h2 : testTables.invAt 0x1F980#21 = none := by decide +kernel
    exact fun h => h h2

/-- One more character than the limit, as many as the limit, and no limit. -/
theorem witness_EncCLengthLimit :
    (∃ (s : State) (text : List Char21), TextInput s text ∧ s.OfHardware ∧ s.maxlen ≠ 0#32 ∧
      text.length = s.maxlen.toNat + 1) ∧
    (∃ (s : State) (text : List Char21), TextInput s text ∧ s.OfHardware ∧ s.maxlen ≠ 0#32 ∧
      text.length = s.maxlen.toNat) ∧
    (∃ (s : State) (text : List Char21), TextInput s text ∧ s.OfHardware ∧ s.maxlen = 0#32 ∧ text ≠ []) :=
  ⟨⟨_, _, witness_text 1 0x3F 1 [0x1F980#21, 0x1F980#21] (by simp) (by decide), ⟨_, rfl⟩, by decide, by decide⟩,
   ⟨_, _, witness_text 1 0x3F 2 [0x1F980#21, 0x1F980#21] (by simp) (by decide), ⟨_, rfl⟩, by decide, by decide⟩,
   ⟨_, _, witness_text 1 0x3F 0 [0x1F980#21] (by simp) (by decide), ⟨_, rfl⟩, by decide, by decide⟩⟩

theorem witness_EncodeOutputShape :
    ∃ (T : Tables) (cfg : CodecCfg) (text : List Char21) (out : List Byte),
      TablesWf T ∧ SevenBitSuffixes T ∧ encodeText hw T text cfg = .ok out ∧ out ≠ [] :=
  ⟨testTables, (defaultCfg hw), [0x7B#21], [0x1B#8, 0x28#8], testTables_eq ▸ hwTables_wf,
   testTables_eq ▸ hwTables_sevenBit, by decide +kernel, by decide⟩

theorem witness_NonStrictModeIsTotal : ∃ cfg : CodecCfg, cfg.strict = false ∧ cfg.max = 0 :=
  ⟨defaultCfg hw, rfl, rfl⟩

/-- Every row of the transition table at a boundary of its byte range; T3 needs an empty slot. -/
theorem witness_FsmTransitions :
    (testTables.baseAt 0x00#8 = some 0x40#21 ∧ testTables.baseAt 0x7F#8 = some 0xE0#21) ∧
    (0x7F#8).toNat ≤ 0x7F ∧ 0x7F#8 ≠ 0x1B#8 ∧ 0x80 ≤ (0x80#8).toNat ∧
    ({ testTables with base := baseTable.set 0x60 none } : Tables).baseAt 0x60#8 = none ∧
    testTables.extAt 0x65#8 = some 0x20AC#21 ∧ testTables.extAt 0x1B#8 = none ∧
    testTables.extAt 0xFF#8 = none := by decide +kernel

theorem witness_DecCompletes : ∃ (s : State) (bytes : List Byte), ByteInput s bytes ∧ s.OfHardware ∧ bytes ≠ [] :=
  ⟨_, _, witness_bytes 0 0xFFFD 0 [0x1B#8] (by simp), ⟨_, rfl⟩, by decide⟩

theorem witness_DecCAnswersTheScan :
    (∃ (s : State) (bytes : List Byte), ByteInput s bytes ∧ s.OfHardware ∧ s.maxlen = 0#32 ∧ bytes ≠ []) ∧
    (∃ (s : State) (bytes : List Byte), ByteInput s bytes ∧ s.OfHardware ∧ s.maxlen ≠ 0#32 ∧
      bytes.length = s.maxlen.toNat) :=
  ⟨⟨_, _, witness_bytes 1 0x3F 0 [0x1B#8] (by simp), ⟨_, rfl⟩, by decide, by decide⟩,
   ⟨_, _, witness_bytes 3 0x3F 1 [0x1B#8] (by simp), ⟨_, rfl⟩, by decide, by decide⟩⟩

theorem witness_DecCLengthLimit :
    (∃ (s : State) (bytes : List Byte), ByteInput s bytes ∧ s.OfHardware ∧ s.maxlen ≠ 0#32 ∧
      bytes.length = s.maxlen.toNat + 1) ∧
    (∃ (s : State) (bytes : List Byte), ByteInput s bytes ∧ s.OfHardware ∧ s.maxlen ≠ 0#32 ∧
      bytes.length = s.maxlen.toNat) ∧
    (∃ (s : State) (bytes : List Byte), ByteInput s bytes ∧ s.OfHardware ∧ s.maxlen = 0#32 ∧ bytes ≠ []) :=
  ⟨⟨_, _, witness_bytes 0 0x3F 1 [0x41#8, 0x1B#8] (by simp), ⟨_, rfl⟩, by decide, by decide⟩,
   ⟨_, _, witness_bytes 1 0x3F 2 [0x41#8, 0x1B#8] (by simp), ⟨_, rfl⟩, by decide, by decide⟩,
   ⟨_, _, witness_bytes 1 0x3F 0 [0x1B#8] (by simp), ⟨_, rfl⟩, by decide, by decide⟩⟩

theorem witness_HighBytesNeverFail :
    ∀ b ∈ [0x80#8, 0xFF#8], 0x80 ≤ b.toNat := by simp

theorem witness_DecodeOutputShape :
    decodeBytes hw testTables [0x1B#8, 0x65#8, 0x41#8] (defaultCfg hw) = .ok [0x20AC#21, 0x41#21] := by
  decide +kernel

theorem witness_SplitAtCodeBoundary :
    WellFormedBytes testTables [0x41#8, 0x1B#8, 0x28#8] ∧
    runPass hw testTables [0x41#8, 0x1B#8, 0x28#8] (strictCfg hw) = .ok [0x41#21, 0x7B#21] := by
  refine ⟨⟨[.single 0x41#8, .escape 0x28#8], ?_, rfl⟩, by decide +kernel⟩
  have h : testTables.extAt 0x28#8 ≠ none := by decide +kernel
  intro k hk
  simp only [List.mem_cons, List.not_mem_nil, or_false] at hk
  rcases hk with rfl | rfl
  · exact ⟨by decide, by decide⟩
  · exact h

/-- An escape code against a length limit it meets exactly. -/
theorem witness_RoundTripOfCharacter :
    TablesWf testTables ∧ testTables.mapped 0x20AC#21 ∧
    (testTables.codeBytes 0x20AC#21).length ≤ 2 := by
  have h : testTables.invAt 0x20AC#21 ≠ none := by decide +kernel
  exact ⟨testTables_eq ▸ hwTables_wf, h, by decide +kernel⟩

theorem witness_RoundTripOfText :
    ∃ (T : Tables) (cfg cfg' : CodecCfg) (text : List Char21) (out : List Byte),
      TablesWf T ∧ (∀ c ∈ text, T.mapped c) ∧ encodeText hw T text cfg = .ok out ∧
      out.length = cfg'.max ∧ text ≠ [] := by
  refine ⟨testTables, strictCfg hw, { strictCfg hw with max := 2 }, [0x20AC#21], [0x1B#8, 0x65#8],
    testTables_eq ▸ hwTables_wf, ?_, by decide +kernel, by decide, by decide⟩
  have h : testTables.invAt 0x20AC#21 ≠ none := by decide +kernel
  intro c hc
  simp only [List.mem_singleton] at hc
  subst hc
  exact h

theorem witness_ElenCompletes :
    ∃ (s : State) (text : List Char21), TextInput s text ∧ s.OfHardware ∧ (∀ c ∈ text, s.tables.mapped c) ∧
      text ≠ [] := by
  obtain ⟨s, text, h1, h0, h2, -, h3⟩ := witness_EncCMappedCompletes
  exact ⟨s, text, h1, h0, h2, h3⟩

theorem witness_ElenReportsFirstUnmapped :
    ∃ (s : State) (before after : List Char21) (c : Char21),
      TextInput s (before ++ c :: after) ∧ (∀ x ∈ before, s.tables.mapped x) ∧
      ¬ s.tables.mapped c := by
  obtain ⟨s, before, after, c, h1, -, -, -, h2, h3⟩ := witness_EncCStrictReportsFirstUnmapped
  exact ⟨s, before, after, c, h1, h2, h3⟩

/-- Both clauses of CompatCompletes. -/
theorem witness_CompatCompletes :
    (∃ (s : State) (text : List Char21), TextInput s text ∧ ∀ c ∈ text, s.tables.mapped c) ∧
    (∃ (s : State) (text : List Char21), TextInput s text ∧ ∃ c ∈ text, ¬ s.tables.mapped c) := by
  obtain ⟨s, text, h1, -, h2, -⟩ := witness_ElenCompletes
  obtain ⟨s', before, after, c, h3, -, h4⟩ := witness_ElenReportsFirstUnmapped
  exact ⟨⟨s, text, h1, h2⟩, ⟨s', _, h3, c, by simp, h4⟩⟩

/-- Both clauses of EncodedLenIsLengthOfEncode, at a length equal to the limit. -/
theorem witness_EncodedLenIsLengthOfEncode :
    encodedLen testTables [0x7B#21] = .ok 2 ∧
    encodedLen testTables [0x1F980#21] = .err (.unsupportedCharacter 0x1F980#21 0x1F980) ∧
    [0x7B#21].length ≤ 1 := by decide +kernel

theorem witness_lookup : ∃ s : State, s.OfHardware ∧ s.port.input = .empty :=
  ⟨State.reset, ⟨_, rfl⟩, rfl⟩

/-- Every clause of LkbCompletes at the boundaries of the byte's range. -/
theorem witness_LkbCompletes :
    (testState 0 0xFFFD 0).OfHardware ∧ (testState 0 0xFFFD 0).port.input = .empty ∧
    testTables.baseAt 0x7F#8 = some 0xE0#21 ∧
    (0x7F#8).toNat ≤ 0x7F ∧ 0x80 ≤ (0x80#8).toNat ∧ testTables.baseAt 0x1B#8 = none := by
  refine ⟨⟨_, rfl⟩, ?_⟩
  decide +kernel

/-- Both clauses of LkeCompletes. -/
theorem witness_LkeCompletes :
    State.reset.port.input = .empty ∧ testTables.extAt 0x0A#8 = some 0x0C#21 ∧
    testTables.extAt 0xFF#8 = none := by decide +kernel

/-- The three clauses of InverseIndexPrefersTheBaseTable: a character in both tables, one in the
extension only, one in neither. -/
theorem witness_InverseIndexPrefersTheBaseTable :
    (([none, some 0x41#21] : List (Option Char21))[1]? = some (some 0x41#21) ∧
      ∀ k < 1, ([none, some 0x41#21] : List (Option Char21))[k]? ≠ some (some 0x41#21)) ∧
    some 0x42#21 ∉ ([none, some 0x41#21] : List (Option Char21)) ∧
    ([(0x10#8, 0x41#21), (0x11#8, 0x42#21)] : List (Byte × Char21)) =
      [(0x10#8, 0x41#21)] ++ (0x11#8, 0x42#21) :: [] ∧
    some 0x43#21 ∉ ([none, some 0x41#21] : List (Option Char21)) := by decide

theorem witness_TablesRoundTripThroughTheIndex :
    TablesWf testTables ∧ testTables.baseAt 0x7F#8 = some 0xE0#21 ∧
    testTables.extAt 0x65#8 = some 0x20AC#21 ∧ testTables.invAt 0xE0#21 = some (.single 0x7F#8) ∧
    testTables.invAt 0x20AC#21 = some (.escape 0x65#8) :=
  ⟨testTables_eq ▸ hwTables_wf, by decide +kernel, by decide +kernel, by decide +kernel,
   by decide +kernel⟩

theorem witness_DefaultRegistersMakeConfiguredCommandsPlain :
    State.reset.OfHardware ∧ State.reset.cfg = 0#32 ∧ State.reset.repl = 0xFFFD#32 ∧
    State.reset.maxlen = 0#32 := ⟨⟨_, rfl⟩, by decide⟩

theorem witness_PresetsAreMinimal :
    (∃ s t, exec .cfgd s = .next t) ∧ (∃ s t, exec .cfgs s = .next t) :=
  ⟨⟨State.reset, _, rfl⟩, ⟨State.reset, _, rfl⟩⟩

/-- A transaction of each verdict. -/
theorem witness_RefusesExactlyInadmissible :
    (Transaction.readReg 8).admissible State.reset.params.inCap = false ∧
    (Transaction.readReg 7).admissible State.reset.params.inCap = true ∧
    (State.reset.withPending [.readReg 8]).port.refusal = none := by decide

/-- Every ground of CommandRefusalGrounds. -/
theorem witness_CommandRefusalGrounds :
    (∃ s : State, s.params.inCap < s.port.input.length) ∧
    (∃ s : State, s.port.input.length = s.params.inCap ∧ s.port.input.asText = none) ∧
    (∃ s : State, s.port.input.length = s.params.inCap ∧ s.port.input.asText = some [0xD800#21]) ∧
    (∃ s : State, s.port.input.length = s.params.inCap ∧ s.port.input.asBytes = none) ∧
    (∃ s : State, s.port.input.length = s.params.inCap ∧ s.port.input ≠ .empty) :=
  ⟨⟨{ State.reset.withInput (.ofBytes [0x41#8]) with params := { hwParams with inCap := 0 } }, by decide⟩,
   ⟨{ State.reset.withInput (.ofBytes [0x41#8]) with params := { hwParams with inCap := 1 } }, by decide, by decide⟩,
   ⟨{ State.reset.withInput (.ofText [0xD800#21]) with params := { hwParams with inCap := 1 } }, by decide, by decide⟩,
   ⟨{ State.reset.withInput (.ofText [0x41#21]) with params := { hwParams with inCap := 1 } }, by decide, by decide⟩,
   ⟨{ State.reset.withInput (.ofBytes [0x41#8]) with params := { hwParams with inCap := 1 } }, by decide, by decide⟩⟩

theorem witness_RefusalMarkPersists :
    (State.reset.port.refusal = none ∧ perform (.readReg 8) State.reset = .refused .registerIndex) ∧
    (State.reset.mark .registerIndex).port.refusal = some .registerIndex :=
  ⟨⟨rfl, rfl⟩, rfl⟩

/-- A step from a state that the whole-machine statements speak of: TablesAreNeverWritten,
ConfigurationChangesOnlyByItsWriters. -/
theorem witness_step :
    ∃ t, step (State.reset.withPending [.command 0x09#32 .empty]) = .next t := ⟨_, rfl⟩

/-- A state of the invariant, after an error, that takes a step. -/
theorem witness_EveryStepKeepsTheInvariant :
    ∃ s t : State, StateInv s ∧ s.status = 0x93#32 ∧ step s = .next t := by
  refine ⟨State.withPending { State.reset with cfg := 3#32, status := 0x93#32 }
    [.command 0x09#32 .empty], _, ?_, rfl, rfl⟩
  exact
    { ofHardware := ⟨_, rfl⟩, tablesWf := hwTables_wf, sevenBit := hwTables_sevenBit
      cfgReserved := rfl, replReserved := by decide, replScalar := by decide
      statusReserved := by decide, kindRange := by decide, reasonRange := by decide
      errIffKind := by decide, reasonIffMalformed := by decide, illegalNoErr := by decide
      errinfoFits := ⟨by decide, by decide, by decide, by decide, by decide⟩
      quietOnError := fun _ => ⟨rfl, rfl⟩, notDone := fun h => absurd h (by decide)
      fsmPlain := rfl, outBound := Nat.zero_le _, outFits := trivial
      inCapBound := by
        simp [State.withPending, State.reset, State.resetOf, hwParams, Config.inCapMax], inputEmpty := rfl }

theorem witness_OnlyConfiguredCommandsReadTheRegisters :
    Instr.cfgs ≠ .encC ∧ Instr.cfgs ≠ .decC ∧ ∃ t, exec .cfgs State.reset = .next t :=
  ⟨by decide, by decide, _, rfl⟩

theorem witness_CommandIsIdempotent :
    ∃ t, perform (.command 0x09#32 .empty) State.reset = .next t := ⟨_, rfl⟩

/-- Both verdicts of both commands, under the configuration strict, unvalidated, `MAXLEN` 1. -/
theorem witness_WritesAreSeenByTheNextCommand :
    State.reset.OfHardware ∧ isScalar 0x10FFFF#21 = true ∧ State.reset.port.refusal = none ∧
    (∀ c ∈ [0x61#21], isScalar c = true) ∧ [0x61#21].length ≤ State.reset.params.inCap ∧
    encodeText hw testTables [0x61#21] { strict := true, repl := 0x10FFFF#21, max := 1, validate := false } =
      .ok [0x61#8] ∧
    encodeText hw testTables [0x1F980#21]
      { strict := true, repl := 0x10FFFF#21, max := 1, validate := false } =
      .err (.unsupportedCharacter 0x1F980#21 0x1F980) ∧
    decodeBytes hw testTables [0x61#8] { strict := true, repl := 0x10FFFF#21, max := 1, validate := false } =
      .ok [0x61#21] ∧
    decodeBytes hw testTables [0x1B#8] { strict := true, repl := 0x10FFFF#21, max := 1, validate := false } =
      .err (.malformedData .escAtEnd) := by
  refine ⟨⟨_, rfl⟩, by decide, rfl, List.all_eq_true.mp (by decide), ?_, by decide +kernel,
    by decide +kernel, by decide +kernel, by decide +kernel⟩
  simp [State.reset, State.resetOf, hwParams, Config.inCapMax]

theorem witness_HostRunIsTheMachineRun :
    State.reset.port.refusal = none ∧ State.reset.port.pending = [] := ⟨rfl, rfl⟩

end Sys2Proof.Machine
end

section
/-! SUPPORT. The state after reset (spec/10_state.md R34): the tables of this hardware as R100 to R105
give them, the register that has no storage, and the statement ResetValues. -/

namespace Sys2Proof.Machine

/-! ### The tables of this hardware -/

theorem hwTables_eq :
    hwTables = { base := baseTable, ext := extTable, inv := buildInv baseTable extTable } := by
  rw [hwTables, Tables.ofParameters, baseOf_hwParams, hwParams_extTable]

/-! ### The components of the reset state -/

/-- `x[7]` has no storage and reads 0 in every state (R29). -/
@[simp] theorem State.readReg_seven (s : State) : s.readReg 7 = .ok 0#32 := rfl

/-- The reset value of `REPL` is `DEFAULT_REPL`, zero-extended to the register (R23, R34). -/
theorem reset_repl : State.reset.repl = 0x0000FFFD#32 := by
  have h : State.reset.repl = hw.defaultRepl.setWidth 32 := rfl
  rw [h, hw_defaultRepl]
  decide

theorem reset_tables :
    State.reset.tables =
      { base := baseTable, ext := extTable, inv := buildInv baseTable extTable } := by
  have h : State.reset.tables = hwTables := rfl
  rw [h, hwTables_eq]

theorem reset_base : State.reset.tables.base = baseTable := by rw [reset_tables]

theorem reset_ext : State.reset.tables.ext = extTable := by rw [reset_tables]

theorem reset_inv : State.reset.tables.inv = buildInv baseTable extTable := by rw [reset_tables]

/-- Settles O1: the registers other than `REPL` and the output are literals of the reset state;
`REPL` and the tables come from the parameters of this hardware. -/
theorem resetValues : Obligations.ResetValues :=
  ⟨rfl, reset_repl, rfl, rfl, rfl, rfl, rfl, State.readReg_seven _, rfl,
    reset_base, reset_ext, reset_inv⟩

end Sys2Proof.Machine
end

section
/-! SUPPORT. The decoder against the command map (spec/30_encoding.md R76): what a legal word decodes to
encodes back to it, and a word that a row admits is the word of an instruction of that row. -/

namespace Sys2Proof

/-! ### A word is made of its fields (R74) -/

/-- A word whose reserved bits are zero is the template filled with its own fields. -/
theorem commandWord_fields {w : Word} (hl : w.extractLsb' 5 3 = 0#3) (hh : w.extractLsb' 29 3 = 0#3) :
    commandWord (opOf w) (ucOf w) (argOf w) = w := by
  have huc : BitVec.ofBool (ucOf w) = w.extractLsb' 4 1 := by
    ext k hk
    obtain rfl : k = 0 := by omega
    simp [ucOf]
  calc commandWord (opOf w) (ucOf w) (argOf w)
      = w.extractLsb' 29 3 ++ w.extractLsb' 8 21 ++ w.extractLsb' 5 3 ++ w.extractLsb' 4 1 ++
          w.extractLsb' 0 4 := by rw [hl, hh, ← huc]; rfl
    _ = w.extractLsb' 0 32 := by
        rw [BitVec.extractLsb'_append_extractLsb'_eq_extractLsb' (rfl : 29 = 8 + 21),
          BitVec.extractLsb'_append_extractLsb'_eq_extractLsb' (rfl : 8 = 5 + 3),
          BitVec.extractLsb'_append_extractLsb'_eq_extractLsb' (rfl : 5 = 4 + 1),
          BitVec.extractLsb'_append_extractLsb'_eq_extractLsb' (rfl : 4 = 0 + 4)]
    _ = w := BitVec.extractLsb'_eq_self

/-- The operand of a byte row with its high bits zero is the byte, zero-extended (R75). -/
theorem setWidth_lowByte {arg : BitVec 21} (h : arg.extractLsb' 8 13 = 0#13) :
    (arg.extractLsb' 0 8).setWidth 21 = arg := by
  calc (arg.extractLsb' 0 8).setWidth 21
      = arg.extractLsb' 8 13 ++ arg.extractLsb' 0 8 := by
        rw [BitVec.setWidth_eq_append (by decide), h]; rfl
    _ = arg.extractLsb' 0 21 := BitVec.extractLsb'_append_extractLsb'_eq_extractLsb' rfl
    _ = arg := BitVec.extractLsb'_eq_self

/-! ### What the rows of the decoder answer -/

theorem decodeNoArg_eq_legal_iff {arg : BitVec 21} {i j : Instr} :
    decodeNoArg arg i = .legal j ↔ arg = 0#21 ∧ i = j := by
  unfold decodeNoArg
  split <;> simp [*]

theorem decodeNoConfig_eq_legal_iff {uc : Bool} {d : Decoded} {j : Instr} :
    decodeNoConfig uc d = .legal j ↔ uc = false ∧ d = .legal j := by
  cases uc <;> simp [decodeNoConfig]

theorem decodeByteArg_eq_legal_iff {arg : BitVec 21} {i : Byte → Instr} {j : Instr} :
    decodeByteArg arg i = .legal j ↔ arg.extractLsb' 8 13 = 0#13 ∧ i (arg.extractLsb' 0 8) = j := by
  unfold decodeByteArg
  split <;> simp [*]

theorem decodeCharArg_eq_legal_iff {arg : BitVec 21} {j : Instr} :
    decodeCharArg arg = .legal j ↔ isScalar arg = true ∧ .lkc arg = j := by
  unfold decodeCharArg
  split <;> simp [*]

theorem decode_eq_legal_iff {w : Word} {i : Instr} :
    decode w = .legal i ↔ w.extractLsb' 5 3 = 0#3 ∧ w.extractLsb' 29 3 = 0#3 ∧
      decodeFields (opOf w).toNat (ucOf w) (argOf w) = .legal i := by
  unfold decode
  split
  · simp [*]
  · split <;> simp_all

/-- The fields that decode to an instruction are those of its own word. -/
theorem encode_of_decodeFields {op : BitVec 4} {uc : Bool} {arg : BitVec 21} {i : Instr}
    (h : decodeFields op.toNat uc arg = .legal i) :
    encode i = commandWord op uc arg ∧ i.wellFormed = true := by
  generalize hn : op.toNat = n at h
  obtain rfl : op = BitVec.ofNat 4 n := by simp [← hn]
  unfold decodeFields at h
  split at h
  case h_1 | h_2 =>
    obtain ⟨rfl, rfl⟩ := decodeNoArg_eq_legal_iff.1 h
    cases uc <;> exact ⟨rfl, rfl⟩
  case h_3 | h_4 | h_8 | h_9 =>
    obtain ⟨rfl, h⟩ := decodeNoConfig_eq_legal_iff.1 h
    obtain ⟨rfl, rfl⟩ := decodeNoArg_eq_legal_iff.1 h
    exact ⟨rfl, rfl⟩
  case h_5 =>
    obtain ⟨rfl, h⟩ := decodeNoConfig_eq_legal_iff.1 h
    obtain ⟨hs, rfl⟩ := decodeCharArg_eq_legal_iff.1 h
    exact ⟨rfl, hs⟩
  case h_6 | h_7 =>
    obtain ⟨rfl, h⟩ := decodeNoConfig_eq_legal_iff.1 h
    obtain ⟨hz, rfl⟩ := decodeByteArg_eq_legal_iff.1 h
    exact ⟨congrArg (commandWord _ false) (setWidth_lowByte hz), rfl⟩
  case h_10 => cases h

/-- A legal word is the word of the instruction it decodes to. -/
theorem encode_of_decode {w : Word} {i : Instr} (h : decode w = .legal i) :
    encode i = w ∧ i.wellFormed = true := by
  obtain ⟨hl, hh, hf⟩ := decode_eq_legal_iff.1 h
  obtain ⟨he, hwf⟩ := encode_of_decodeFields hf
  exact ⟨he.trans (commandWord_fields hl hh), hwf⟩

/-! ### From an instruction to its row -/

/-- Every instruction's word lies in its own row, under the row's mask. -/
theorem tableRow (i : Instr) : Laws.TableRow.Statement i := by
  cases i with
  | enc => exact Laws.TableRow.enc
  | encC => exact Laws.TableRow.encC
  | dec => exact Laws.TableRow.dec
  | decC => exact Laws.TableRow.decC
  | elen => exact Laws.TableRow.elen
  | compat => exact Laws.TableRow.compat
  | lkc c => exact Laws.TableRow.lkc c
  | lkb b => exact Laws.TableRow.lkb b
  | lke x => exact Laws.TableRow.lke x
  | cfgd => exact Laws.TableRow.cfgd
  | cfgs => exact Laws.TableRow.cfgs

/-- The row of an instruction admits its word, `LKC`'s by the operand being a scalar value. -/
theorem row_admits_encode {i : Instr} (h : i.wellFormed = true) :
    ∃ r, commandMap[rowIndex i]? = some r ∧ r.admits (encode i) = true := by
  obtain ⟨r, hr, hm⟩ := tableRow i
  refine ⟨r, hr, ?_⟩
  unfold Row.admits
  rw [decide_eq_true hm, Bool.true_and]
  cases i with
  | lkc c =>
    have hs : isScalar (argOf (encode (.lkc c))) = true :=
      (congrArg isScalar (argOf_commandWord _ _ c)).trans h
    rw [hs, Bool.or_true]
  | _ => cases hr; rfl

/-! ### From a row to its instruction -/

/-- Every row fixes the reserved bits, `OP` and `UC`, the reserved ones to zero; what it leaves free
lies in `ARG`. -/
theorem commandMap_fixes : ∀ r ∈ commandMap,
    r.mask.extractLsb' 5 3 = BitVec.allOnes 3 ∧ r.pattern.extractLsb' 5 3 = 0#3 ∧
    r.mask.extractLsb' 29 3 = BitVec.allOnes 3 ∧ r.pattern.extractLsb' 29 3 = 0#3 ∧
    opOf r.mask = BitVec.allOnes 4 ∧ ucOf r.mask = true ∧ argOf r.pattern = 0#21 := by
  decide

/-- A word under a row's mask decodes by the row's `OP` and `UC`, and its `ARG` is zero under the mask. -/
theorem decode_of_masked {r : Row} {w : Word} (hr : r ∈ commandMap) (h : w &&& r.mask = r.pattern) :
    decode w = decodeFields (opOf r.pattern).toNat (ucOf r.pattern) (argOf w) ∧
      argOf w &&& argOf r.mask = 0#21 := by
  obtain ⟨hml, hpl, hmh, hph, hmo, hmu, hpa⟩ := commandMap_fixes r hr
  have field (start len : Nat) :
      w.extractLsb' start len &&& r.mask.extractLsb' start len = r.pattern.extractLsb' start len := by
    rw [← BitVec.extractLsb'_and, h]
  have hl : w.extractLsb' 5 3 = 0#3 := by
    simpa only [hml, BitVec.and_allOnes, hpl] using field 5 3
  have hh : w.extractLsb' 29 3 = 0#3 := by
    simpa only [hmh, BitVec.and_allOnes, hph] using field 29 3
  have ho : opOf w = opOf r.pattern :=
    calc opOf w = opOf w &&& opOf r.mask := by rw [hmo, BitVec.and_allOnes]
      _ = opOf r.pattern := field 0 4
  have hu : ucOf w = ucOf r.pattern :=
    calc ucOf w = (ucOf w && ucOf r.mask) := by rw [hmu, Bool.and_true]
      _ = ucOf r.pattern := by rw [← h]; exact BitVec.getLsbD_and.symm
  refine ⟨?_, (field 8 21).trans hpa⟩
  rw [← commandWord_fields hl hh, decode_commandWord, argOf_commandWord, ho, hu]

/-- The rows whose mask covers the whole word leave no operand. -/
theorem arg_eq_zero {arg : BitVec 21} (h : arg &&& argOf 0xFFFFFFFF#32 = 0#21) : arg = 0#21 := by
  have hm : argOf 0xFFFFFFFF#32 = BitVec.allOnes 21 := by decide
  rwa [hm, BitVec.and_allOnes] at h

/-- The rows of `LKB` and `LKE` leave only the low byte of the operand. -/
theorem arg_high_eq_zero {arg : BitVec 21} (h : arg &&& argOf 0xFFFF00FF#32 = 0#21) :
    arg.extractLsb' 8 13 = 0#13 := by
  have hm : (argOf 0xFFFF00FF#32).extractLsb' 8 13 = BitVec.allOnes 13 := by decide
  rw [← BitVec.and_allOnes (x := arg.extractLsb' 8 13), ← hm, ← BitVec.extractLsb'_and, h]
  decide

/-- A word that a row admits decodes to an instruction of that row. -/
theorem decode_of_admits {k : Nat} {r : Row} {w : Word} (hk : commandMap[k]? = some r)
    (h : r.admits w = true) : ∃ i, decode w = .legal i ∧ rowIndex i = k := by
  obtain ⟨hm, hs⟩ := Bool.and_eq_true_iff.1 h
  obtain ⟨hd, ha⟩ := decode_of_masked (List.mem_of_getElem? hk) (of_decide_eq_true hm)
  rw [hd]
  match k, hk with
  | 0, rfl | 1, rfl | 2, rfl | 3, rfl | 4, rfl | 5, rfl | 9, rfl | 10, rfl =>
    rw [arg_eq_zero ha]
    exact ⟨_, rfl, rfl⟩
  | 6, rfl => exact ⟨_, decodeCharArg_eq_legal_iff.2 ⟨hs, rfl⟩, rfl⟩
  | 7, rfl | 8, rfl => exact ⟨_, decodeByteArg_eq_legal_iff.2 ⟨arg_high_eq_zero ha, rfl⟩, rfl⟩

/-- Settles O12: a legal word is the word of its instruction, which the instruction's row admits; and
the fields that a row's mask and match fix decide the decoder's row. -/
theorem decodeFollowsTheCommandMap : Obligations.DecodeFollowsTheCommandMap := by
  intro w k
  constructor
  · rintro ⟨i, hd, rfl⟩
    obtain ⟨rfl, hwf⟩ := encode_of_decode hd
    exact row_admits_encode hwf
  · rintro ⟨r, hk, ha⟩
    exact decode_of_admits hk ha

end Sys2Proof
end

section
/-! SUPPORT. The inverse index (spec/40_tables.md R105, R106): the two loops of R105 as one lookup, and the
statement InverseIndexPrefersTheBaseTable. -/

namespace Sys2Proof.Machine

/-- The index built from two tables answers from the base table, then from the extension table. -/
theorem lookup_buildInv (base : List (Option Char21)) (ext : List (Byte × Char21)) (c : Char21) :
    (buildInv base ext).lookup c =
      ((base.findIdx? (· = some c)).map fun n => Code.single (BitVec.ofNat 8 n)).or
        ((ext.find? (·.2 = c)).map fun e => Code.escape e.1) := by
  rw [buildInv, lookup_addExt, lookup_addBase]
  cases base.findIdx? (· = some c) <;> simp

/-- The lowest slot of a character is where the search of the base table stops. -/
theorem findIdx?_eq_of_lowestSlot {base : List (Option Char21)} {c : Char21} {n : Nat}
    (hn : base[n]? = some (some c)) (hmin : ∀ k < n, base[k]? ≠ some (some c)) :
    base.findIdx? (· = some c) = some n := by
  obtain ⟨hlt, hc⟩ := List.getElem?_eq_some_iff.1 hn
  refine List.findIdx?_eq_some_iff_getElem.2 ⟨hlt, decide_eq_true hc, fun k hk hkc => hmin k hk ?_⟩
  rw [List.getElem?_eq_getElem (hk.trans hlt), of_decide_eq_true hkc]

/-- A character outside the base table is looked up in the extension table alone. -/
theorem lookup_buildInv_of_notMem_base {base : List (Option Char21)} {c : Char21}
    (hc : some c ∉ base) (ext : List (Byte × Char21)) :
    (buildInv base ext).lookup c = (ext.find? (·.2 = c)).map fun e => Code.escape e.1 := by
  have hnone : base.findIdx? (· = some c) = none :=
    List.findIdx?_eq_none_iff.2 fun _ ho => decide_eq_false fun h => hc (h ▸ ho)
  rw [lookup_buildInv, hnone, Option.map_none, Option.none_or]

/-- Settles O42: the base table answers first, at the lowest slot; a character it lacks is left to the
search of the extension table, which stops at the first suffix or finds none. -/
theorem inverseIndexPrefersTheBaseTable : Obligations.InverseIndexPrefersTheBaseTable := by
  intro base ext c
  refine ⟨fun n hn hmin => ?_, fun before after s hc hext hbefore => ?_, fun hc hext => ?_⟩
  · rw [lookup_buildInv, findIdx?_eq_of_lowestSlot hn hmin, Option.map_some, Option.some_or]
  · have hfind : ext.find? (·.2 = c) = some (s, c) :=
      List.find?_eq_some_iff_append.2
        ⟨decide_eq_true rfl, before, after, hext, fun e he => by simp [hbefore e he]⟩
    rw [lookup_buildInv_of_notMem_base hc, hfind, Option.map_some]
  · have hfind : ext.find? (·.2 = c) = none :=
      List.find?_eq_none.2 fun e he h => hext e he (of_decide_eq_true h)
    rw [lookup_buildInv_of_notMem_base hc, hfind, Option.map_none]

end Sys2Proof.Machine
end

section
/-! SUPPORT. `ENC.C` (spec/41_encoder.md R149) by the length check of R141: what it answers to a string
within the limit and to a longer one, and the three statements about it. -/

namespace Sys2Proof.Machine

/-! ### The responses, as records -/

/-- The response to encoded bytes: `RESULT` is their number, in 32 bits (R27). -/
theorem State.OfHardware.answerBytes_ok {s : State} (h : s.OfHardware) (out : List Byte) :
    s.answerBytes (.ok out) = s.okResponse (.ofBytes out) (BitVec.ofNat 32 out.length) := by
  rw [State.answerBytes, h.lenWord, State.succeed_eq_okResponse]

theorem State.report_unsupportedCharacter (s : State) (c : Char21) :
    s.report (.unsupportedCharacter c c.toNat) =
      s.errorResponse (.unsupportedCharacter c c.toNat) :=
  s.report_eq_errorResponse _ fun _ _ h => by cases h; rfl

theorem State.report_lengthExceeded (s : State) :
    s.report (.malformedData .lengthExceeded) = s.errorResponse (.malformedData .lengthExceeded) :=
  s.report_eq_errorResponse _ nofun

/-! ### `ENC.C` on either side of the limit -/

/-- A length that the registers admit passes the check (R141). -/
theorem State.OfHardware.registerCfg_fits {s : State} (h : s.OfHardware) {n : Nat}
    (hn : s.maxlen = 0#32 ∨ n ≤ s.maxlen.toNat) : s.registerCfg.tooLong n = false := by
  rw [← Bool.not_eq_true, h.registerCfg_tooLong]
  rintro ⟨hne, hlt⟩
  exact hn.elim hne fun hle => absurd hlt hle.not_gt

/-- `ENC.C` answers the encoding under the registers' configuration (R149). -/
theorem exec_encC {s : State} {text : List Char21} (h : s.OfHardware) (ht : TextInput s text) :
    exec .encC s = .next (s.answerBytes (encodeText hw s.tables text s.registerCfg)) :=
  execEncC_next.2 ⟨text, ht, by rw [h.codec]⟩

/-- Within the limit `ENC.C` answers the loop of R140. -/
theorem exec_encC_of_fits {s : State} {text : List Char21} (h : s.OfHardware) (ht : TextInput s text)
    (hn : s.maxlen = 0#32 ∨ text.length ≤ s.maxlen.toNat) :
    exec .encC s = .next (s.answerBytes (encodeFrom hw s.tables s.registerCfg text)) := by
  rw [exec_encC h ht, encodeText_of_fits _ (h.registerCfg_fits hn)]

/-- Beyond the limit `ENC.C` reports the length (R141). -/
theorem exec_encC_of_tooLong {s : State} {text : List Char21} (h : s.OfHardware)
    (ht : TextInput s text) (hne : s.maxlen ≠ 0#32) (hlt : s.maxlen.toNat < text.length) :
    exec .encC s = .next (s.errorResponse (.malformedData .lengthExceeded)) := by
  rw [exec_encC h ht, encodeText_of_tooLong _ (h.registerCfg_tooLong.2 ⟨hne, hlt⟩),
    State.answerBytes, State.report_lengthExceeded]

/-- The loop of R140 never leaves the `STATUS` of the length check: its one error is an unsupported
character. -/
theorem answerBytes_encodeFrom_status_ne (s : State) (P : Params) (T : Tables) (cfg : CodecCfg)
    (text : List Char21) : (s.answerBytes (encodeFrom P T cfg text)).status ≠ 0x53#32 := by
  obtain ⟨out, -, ha⟩ | ⟨e, he, ha⟩ := s.answerBytes_cases (encodeFrom P T cfg text)
  · rw [ha, State.succeed_eq_okResponse]
    show 0x01#32 ≠ 0x53#32
    decide
  · obtain ⟨c, rfl⟩ := encodeFrom_err T P he
    rw [ha, State.report_unsupportedCharacter]
    show 0x07#32 ≠ 0x53#32
    decide

/-! ### The statements -/

/-- Settles O17: without `STRICT` every character has bytes, so the loop is their concatenation. -/
theorem encCLenientCompletes : Obligations.EncCLenientCompletes := by
  intro s text h ht hs hn out
  have hloop : encodeFrom hw s.tables s.registerCfg text = .ok out :=
    encodeFrom_of_forall_ok _ fun c _ => encodeChar_of_lenient (cfg := s.registerCfg) _ hs c
  rw [exec_encC_of_fits h ht hn, hloop, h.answerBytes_ok, State.okResponse]

/-- Settles O19: the characters before `c` have bytes, so the loop comes to `c` and ends with its
error, which replaces the whole output. -/
theorem encCStrictReportsFirstUnmapped : Obligations.EncCStrictReportsFirstUnmapped := by
  intro s before after c h ht hs hn hbefore hc
  have hloop : encodeFrom hw s.tables s.registerCfg (before ++ c :: after) =
      .err (.unsupportedCharacter c c.toNat) :=
    encodeFrom_of_first_err _ (fun x hx => encodeChar_of_mapped _ (hbefore x hx))
      (encodeChar_of_unmapped_strict _ hs hc)
  rw [exec_encC_of_fits h ht hn, hloop, State.answerBytes, State.report_unsupportedCharacter,
    State.errorResponse]

/-- Settles O20: the check answers before the loop where the string is too long, and otherwise the
loop's answer has another `STATUS`. -/
theorem encCLengthLimit : Obligations.EncCLengthLimit := by
  intro s text h ht
  constructor
  · exact exec_encC_of_tooLong h ht
  · exact fun hn => ⟨_, exec_encC_of_fits h ht hn, answerBytes_encodeFrom_status_ne _ _ _ _ _⟩

end Sys2Proof.Machine
end

section
/-! SUPPORT. The escape state machine (spec/42_decoder.md R163, R164), a lemma per row of its table
and the errors it raises; `DEC.C` (R174) by the length check of R161; and the statements FsmTransitions
and DecCLengthLimit. -/

namespace Sys2Proof.Machine

/-! ### The rows of the transition table (R163) -/

section

variable (T : Tables)

/-- T1: the escape byte, in either pass. -/
theorem plainStep_escape (high : Bool) (cfg : CodecCfg) :
    plainStep hw T high cfg 0x1B#8 = .ok (.escapePending, []) := if_pos rfl

/-- T2 and T3 before the table is read: a byte below 0x80 other than the escape byte is looked up in it. -/
theorem plainStep_sevenBit (high : Bool) (cfg : CodecCfg) {b : Byte} (hlow : b.toNat ≤ 0x7F)
    (hesc : b ≠ 0x1B#8) :
    plainStep hw T high cfg b =
      (T.baseAt b).elim (substituteOr cfg (.invalidByte b)) fun c => .ok (.plain, [c]) := by
  have hlt : b.toNat < hw.baseSize := Nat.lt_succ_of_le hlow
  rw [plainStep, hw_esc, if_neg hesc, if_pos hlt]
  cases T.baseAt b <;> rfl

/-- T4 in the main pass: a byte of 0x80 or above is neither the escape byte nor in the table (R166). -/
theorem plainStep_highByte (cfg : CodecCfg) {b : Byte} (hhigh : 0x80 ≤ b.toNat) :
    plainStep hw T false cfg b = .ok (.plain, [cfg.repl]) := by
  have hesc : b ≠ hw.esc := by rintro rfl; exact absurd hhigh (by decide)
  have hge : ¬ b.toNat < hw.baseSize := hhigh.not_gt
  rw [plainStep, if_neg hesc, if_neg hge, if_neg Bool.false_ne_true]

/-- T5: a suffix of the extension table. -/
theorem escapeStep_of_some (cfg : CodecCfg) {b : Byte} {c : Char21} (h : T.extAt b = some c) :
    escapeStep T cfg b = .ok (.plain, [c]) := by rw [escapeStep, h]

/-- T6: any other byte after the escape byte. -/
theorem escapeStep_of_none (cfg : CodecCfg) {b : Byte} (h : T.extAt b = none) :
    escapeStep T cfg b = substituteOr cfg (.invalidEscapeSequence b) := by rw [escapeStep, h]

end

/-! ### The errors of a pass (R163, R164) -/

section

variable {T : Tables} {P : Params} {high : Bool} {cfg : CodecCfg} {e : CodecError}

theorem substituteOr_err {e' : CodecError} (h : substituteOr cfg e = .err e') : e' = e := by
  unfold substituteOr at h
  split at h <;> cases h
  rfl

theorem plainStep_err {b : Byte} (h : plainStep P T high cfg b = .err e) : e = .invalidByte b := by
  unfold plainStep at h
  split at h
  · cases h
  · split at h
    · split at h
      · cases h
      · exact substituteOr_err h
    · split at h
      · exact substituteOr_err h
      · cases h

theorem escapeStep_err {b : Byte} (h : escapeStep T cfg b = .err e) :
    e = .invalidEscapeSequence b := by
  unfold escapeStep at h
  split at h
  · cases h
  · exact substituteOr_err h

theorem fsmStep_err {q : FsmState} {b : Byte} (h : fsmStep P T high cfg q b = .err e) :
    e = .invalidByte b ∨ e = .invalidEscapeSequence b := by
  cases q with
  | plain => exact .inl (plainStep_err h)
  | escapePending => exact .inr (escapeStep_err h)

theorem fsmFinish_err {q : FsmState} (h : fsmFinish cfg q = .err e) :
    e = .malformedData .escAtEnd := by
  cases q with
  | plain => cases h
  | escapePending => exact substituteOr_err h

/-- A pass fails by one of its bytes, or by an escape byte at the end of the input. -/
theorem runFrom_err {q : FsmState} {bytes : List Byte} (h : runFrom P T high cfg q bytes = .err e) :
    (∃ b ∈ bytes, e = .invalidByte b ∨ e = .invalidEscapeSequence b) ∨
      e = .malformedData .escAtEnd := by
  induction bytes generalizing q with
  | nil =>
    rw [runFrom] at h
    split at h
    next hf => cases h; exact .inr (fsmFinish_err hf)
    next => cases h
  | cons b rest ih =>
    rw [runFrom] at h
    split at h
    next hf => cases h; exact .inl ⟨b, List.mem_cons_self, fsmStep_err hf⟩
    next =>
      split at h
      next hr => cases h; exact (ih hr).imp_left fun ⟨x, hx, he⟩ => ⟨x, List.mem_cons_of_mem b hx, he⟩
      next => cases h

/-- The length error is raised by the check of R161 alone, never by a pass. -/
theorem runPass_ne_lengthExceeded (bytes : List Byte) :
    runPass P T bytes cfg ≠ .err (.malformedData .lengthExceeded) := by
  intro h
  obtain ⟨b, -, he | he⟩ | he := runFrom_err h <;> cases he

/-! ### `DEC.C` on either side of the limit -/

/-- `DEC.C` answers the decoding under the registers' configuration (R174). -/
theorem exec_decC {s : State} {bytes : List Byte} (h : s.OfHardware) (hb : ByteInput s bytes) :
    exec .decC s = .next (s.answerText (decodeBytes hw s.tables bytes s.registerCfg)) :=
  execDecC_next.2 ⟨bytes, hb, by rw [h.codec]⟩

/-- Within the limit `DEC.C` answers the main pass, whether or not it validates first. -/
theorem exec_decC_of_fits {s : State} {bytes : List Byte} (h : s.OfHardware) (hb : ByteInput s bytes)
    (hn : s.maxlen = 0#32 ∨ bytes.length ≤ s.maxlen.toNat) :
    exec .decC s = .next (s.answerText (runPass hw s.tables bytes s.registerCfg)) := by
  rw [exec_decC h hb, decodeBytes_eq, h.registerCfg_fits hn, if_neg Bool.false_ne_true]

/-- Beyond the limit `DEC.C` reports the length (R161). -/
theorem exec_decC_of_tooLong {s : State} {bytes : List Byte} (h : s.OfHardware)
    (hb : ByteInput s bytes) (hne : s.maxlen ≠ 0#32) (hlt : s.maxlen.toNat < bytes.length) :
    exec .decC s = .next (s.errorResponse (.malformedData .lengthExceeded)) := by
  rw [exec_decC h hb, decodeBytes_eq, if_pos (h.registerCfg_tooLong.2 ⟨hne, hlt⟩), State.answerText,
    State.report_lengthExceeded]

/-- Only the length error leaves the `STATUS` word 0x53 (R244). -/
theorem eq_lengthExceeded_of_statusErr (h : statusErr e = 0x53#32) :
    e = .malformedData .lengthExceeded := by
  rw [statusErr_eq] at h
  split at h
  case h_4 => rfl
  all_goals exact absurd h (by decide)

/-- A pass never leaves the `STATUS` of the length check, whether it succeeds or fails. -/
theorem answerText_runPass_status_ne (s : State) (bytes : List Byte) :
    (s.answerText (runPass P T bytes cfg)).status ≠ 0x53#32 := by
  obtain ⟨text, -, ha⟩ | ⟨e, he, ha⟩ := s.answerText_cases (runPass P T bytes cfg)
  · rw [ha, State.succeed_status]
    decide
  · rw [ha, State.report_status]
    intro hs
    exact runPass_ne_lengthExceeded bytes (eq_lengthExceeded_of_statusErr hs ▸ he)

end

/-! ### The statements -/

/-- Settles O23: a row of the table each, the byte deciding which; T3, T6 and E2 are `substituteOr`. -/
theorem fsmTransitions : Obligations.FsmTransitions := by
  intro T cfg b
  refine ⟨?t1, fun c hlow hesc hc => ?t2, fun hlow hesc hn => ?t3, plainStep_highByte T cfg,
    fun _ => escapeStep_of_some T cfg, escapeStep_of_none T cfg, rfl, rfl⟩
  case t1 => rintro rfl; exact plainStep_escape T false cfg
  case t2 => rw [fsmStep, plainStep_sevenBit T false cfg hlow hesc, hc, Option.elim_some]
  case t3 => rw [fsmStep, plainStep_sevenBit T false cfg hlow hesc, hn, Option.elim_none, substituteOr]

/-- Settles O27: the check answers before either pass where the sequence is too long, and otherwise the
main pass's answer has another `STATUS`. -/
theorem decCLengthLimit : Obligations.DecCLengthLimit := by
  intro s bytes h hb
  constructor
  · exact exec_decC_of_tooLong h hb
  · exact fun hn => ⟨_, exec_decC_of_fits h hb hn, answerText_runPass_status_ne s bytes⟩

end Sys2Proof.Machine
end

section
/-! SUPPORT. The register transactions and the illegal word (spec/44_config_host.md R221, R222, R226):
what `WRITE_REG` and `READ_REG` do with each index, the step that performs them, and the three statements
about them. -/

namespace Sys2Proof.Machine

/-! ### A step with one transaction pending -/

/-- A transaction's end in an unmarked state, with its port written out. -/
theorem State.respond_withPending {s : State} (h : s.port.refusal = none) (rest : List Transaction)
    (r : Response) :
    (s.withPending rest).respond r =
      { s with port := { pending := rest, input := .empty, response := r, refusal := none } } := by
  simp [State.respond, State.withPending, h]

theorem readReg_withPending (s : State) (i : Nat) (ts : List Transaction) :
    (s.withPending ts).readReg i = s.readReg i := by
  unfold State.readReg
  split <;> rfl

section

variable {s : State} {i : Nat} {v : Word} {rest : List Transaction} (h : s.port.refusal = none)
include h

theorem step_writeReg_ok {u : State} (hp : s.port.pending = .writeReg i v :: rest)
    (hw : s.writeReg i v = .ok u) :
    step s = .next
      { u with port := { pending := rest, input := .empty, response := .nothing, refusal := none } } := by
  obtain ⟨hport, -, -⟩ := writeReg_port hw
  rw [step_of_pending h hp, perform, writeReg_withPending, hw]
  exact congrArg _ (State.respond_withPending (hport ▸ h) rest .nothing)

theorem step_writeReg_error {r : Refusal} (hp : s.port.pending = .writeReg i v :: rest)
    (hw : s.writeReg i v = .error r) : step s = .refused r := by
  rw [step_of_pending h hp, perform, writeReg_withPending, hw]

theorem step_readReg_ok (hp : s.port.pending = .readReg i :: rest) (hr : s.readReg i = .ok v) :
    step s = .next
      { s with port := { pending := rest, input := .empty, response := .value v, refusal := none } } := by
  rw [step_of_pending h hp, perform, readReg_withPending, hr]
  exact congrArg _ (State.respond_withPending h rest (.value v))

theorem step_readReg_error {r : Refusal} (hp : s.port.pending = .readReg i :: rest)
    (hr : s.readReg i = .error r) : step s = .refused r := by
  rw [step_of_pending h hp, perform, readReg_withPending, hr]

end

/-! ### The register file by index -/

/-- R57: the register file ends at `x[7]`. -/
theorem readReg_of_ge {i : Nat} (s : State) (hi : 8 ≤ i) : s.readReg i = .error .registerIndex := by
  obtain ⟨k, rfl⟩ := Nat.exists_eq_add_of_le' hi
  rfl

theorem writeReg_of_ge {i : Nat} (s : State) (v : Word) (hi : 8 ≤ i) :
    s.writeReg i v = .error .registerIndex := by
  obtain ⟨k, rfl⟩ := Nat.exists_eq_add_of_le' hi
  rfl

/-- The low bits of a word, zero-extended, by the mask that keeps them. -/
theorem setWidth_extractLsb'_eq_and {n : Nat} {m : Word} (v : Word) (hm : m.toNat = 2 ^ n - 1) :
    (v.extractLsb' 0 n).setWidth 32 = v &&& m := by
  have hlt : v.toNat % 2 ^ n < 2 ^ 32 := (Nat.mod_le _ _).trans_lt v.isLt
  apply BitVec.eq_of_toNat_eq
  rw [BitVec.toNat_setWidth, BitVec.extractLsb'_toNat, Nat.shiftRight_zero, Nat.mod_eq_of_lt hlt,
    BitVec.toNat_and, hm, Nat.and_two_pow_sub_one_eq_mod]

theorem writeReg_cfg (s : State) (v : Word) : s.writeReg 0 v = .ok { s with cfg := v &&& 0x3#32 } := by
  rw [State.writeReg, setWidth_extractLsb'_eq_and v (m := 0x3#32) rfl]

theorem writeReg_repl_of_isScalar (s : State) {v : Word} (hv : isScalar (v.extractLsb' 0 21) = true) :
    s.writeReg 1 v = .ok { s with repl := v &&& 0x1FFFFF#32 } := by
  rw [State.writeReg, if_pos hv, setWidth_extractLsb'_eq_and v (m := 0x1FFFFF#32) rfl]

theorem writeReg_repl_of_not_isScalar (s : State) {v : Word}
    (hv : isScalar (v.extractLsb' 0 21) = false) : s.writeReg 1 v = .error .replNotScalar := by
  rw [State.writeReg, if_neg (ne_true_of_eq_false hv)]

/-- `LEN_W` is 32 on this hardware, so `MAXLEN` keeps every bit (R6, R24). -/
theorem State.OfHardware.writeReg_maxlen {s : State} (h : s.OfHardware) (v : Word) :
    s.writeReg 2 v = .ok { s with maxlen := v } := by
  rw [State.writeReg, h.lenWord_toNat]

/-- The read-only registers and `x[7]` ignore a write. -/
theorem writeReg_ignored {i : Nat} (s : State) (v : Word) (hlo : 3 ≤ i) (hhi : i ≤ 7) :
    s.writeReg i v = .ok s := by
  interval_cases i <;> rfl

/-! ### The illegal word -/

/-- The bound on the payload is all an illegal word asks of it. -/
theorem performCommand_of_illegal {s : State} {w : Word} {p : Payload} {g : IllegalGround}
    (hd : decode w = .illegal g) (hp : p.length ≤ s.params.inCap) :
    performCommand w p s = .next (s.illegalVerdict.respond (.command 0x21#32 0#32 0#32 .empty)) := by
  simp only [performCommand, hd, State.overCapacity_eq_false.2 hp, Bool.false_eq_true, if_false,
    respondCommand, State.commandResponse, State.illegalVerdict_status, statusIllegal_eq,
    State.illegalVerdict_errinfo, State.illegalVerdict_result, State.illegalVerdict_out]

/-! ### The statements -/

/-- Settles O3: what the write does to the register file, index by index, carried to the step. -/
theorem writeRegisterEffect : Obligations.WriteRegisterEffect := by
  intro s i v rest h hp port
  refine ⟨?cfg, ?scalar, ?notScalar, ?maxlen, fun ⟨hlo, hhi⟩ => ?ignored, fun hi => ?index⟩
  case cfg => rintro rfl; exact step_writeReg_ok h hp (writeReg_cfg s v)
  case scalar => rintro rfl hv; exact step_writeReg_ok h hp (writeReg_repl_of_isScalar s hv)
  case notScalar => rintro rfl hv; exact step_writeReg_error h hp (writeReg_repl_of_not_isScalar s hv)
  case maxlen => rintro rfl hs; exact step_writeReg_ok h hp (hs.writeReg_maxlen v)
  case ignored => exact step_writeReg_ok h hp (writeReg_ignored s v hlo hhi)
  case index => exact step_writeReg_error h hp (writeReg_of_ge s v hi)

/-- Settles O4: each index up to 7 names its register, and the step returns what stands there. -/
theorem readRegisterReturns : Obligations.ReadRegisterReturns := by
  intro s i rest h hp port
  have hread {v : Word} (hr : s.readReg i = .ok v) : step s = .next { s with port := port v } :=
    step_readReg_ok h hp hr
  refine ⟨?_, ?_, ?_, ?_, ?_, ?_, ?_, ?_, fun hi => step_readReg_error h hp (readReg_of_ge s hi)⟩
  all_goals rintro rfl; exact hread rfl

/-- Settles O8: within `IN_CAP` the verdict is the whole of the command, and it is returned. -/
theorem illegalWordVerdict : Obligations.IllegalWordVerdict := by
  intro s w p rest g h hp hd hlen
  rw [step_of_pending h hp, perform, performCommand_of_illegal (s := s.withPending rest) hd hlen,
    ← statusIllegal_eq]
  exact congrArg _ (State.respond_withPending (s := s.illegalVerdict) h rest _)

end Sys2Proof.Machine
end

section
/-! SUPPORT. The decoder against the encoder and against the list of illegal words (spec/30_encoding.md
R75 to R78), and the statements DecodeOfEncode, EncodeOfDecode, IllegalExactlyOnTheListedGrounds and
WrittenOutWordsDecode. -/

namespace Sys2Proof

/-! ### A row answers its own operand (R75) -/

theorem decodeNoArg_zero (i : Instr) : decodeNoArg 0#21 i = .legal i :=
  decodeNoArg_eq_legal_iff.2 ⟨rfl, rfl⟩

/-- A zero-extended byte is read back as the byte. -/
theorem decodeByteArg_setWidth (b : Byte) (i : Byte → Instr) :
    decodeByteArg (b.setWidth 21) i = .legal (i b) := by
  have happ : b.setWidth 21 = 0#13 ++ b := BitVec.setWidth_eq_append (by decide)
  refine decodeByteArg_eq_legal_iff.2 ⟨?_, congrArg i ?_⟩
  · rw [happ, BitVec.extractLsb'_append_eq_left]
  · rw [happ, BitVec.extractLsb'_append_eq_right]

/-- The word of a well-formed instruction decodes to it. -/
theorem decode_encode {i : Instr} (h : i.wellFormed = true) : decode (encode i) = .legal i := by
  cases i with
  | enc | encC | dec | decC | elen | compat | cfgd | cfgs =>
    exact (decode_commandWord _ _ _).trans (decodeNoArg_zero _)
  | lkc c => exact (decode_commandWord _ _ _).trans (decodeCharArg_eq_legal_iff.2 ⟨h, rfl⟩)
  | lkb b | lke b => exact (decode_commandWord _ _ _).trans (decodeByteArg_setWidth b _)

/-! ### A word is legal or illegal, and when it is legal (R78) -/

theorem Decoded.exists_illegal_iff {d : Decoded} : (∃ g, d = .illegal g) ↔ ¬ ∃ i, d = .legal i := by
  cases d <;> simp

/-- What the fields of a legal word satisfy: the negations of the last five items of R78. -/
theorem exists_decodeFields_eq_legal_iff (n : Nat) (uc : Bool) (arg : BitVec 21) :
    (∃ i, decodeFields n uc arg = .legal i) ↔
      (n ≠ 0 ∧ n < 0xA) ∧ (uc = true → n = 1 ∨ n = 2) ∧ (arg ≠ 0#21 → n = 5 ∨ n = 6 ∨ n = 7) ∧
      (n = 6 ∨ n = 7 → arg.extractLsb' 8 13 = 0#13) ∧ (n = 5 → isScalar arg = true) := by
  unfold decodeFields
  split
  case h_10 h1 h2 h3 h4 h5 h6 h7 h8 h9 =>
    simp only [reduceCtorEq, exists_false, false_iff]
    rintro ⟨⟨h0, hlt⟩, -⟩
    interval_cases n <;> contradiction
  all_goals simp [decodeNoConfig_eq_legal_iff, decodeNoArg_eq_legal_iff, decodeByteArg_eq_legal_iff,
    decodeCharArg_eq_legal_iff]

/-! ### The statements -/

/-- Settles O13: the template gives its fields back, and each row reads its own operand. -/
theorem decodeOfEncode : Obligations.DecodeOfEncode := fun _ => decode_encode

/-- Settles O14: a legal word is the template filled with its own fields. -/
theorem encodeOfDecode : Obligations.EncodeOfDecode := fun _ _ => encode_of_decode

/-- Settles O11: a word is legal exactly where the seven items all fail. -/
theorem illegalExactlyOnTheListedGrounds : Obligations.IllegalExactlyOnTheListedGrounds := by
  intro w
  have hlegal : (∃ i, decode w = .legal i) ↔ w.extractLsb' 5 3 = 0#3 ∧ w.extractLsb' 29 3 = 0#3 ∧
      ∃ i, decodeFields (opOf w).toNat (ucOf w) (argOf w) = .legal i := by
    simp only [decode_eq_legal_iff, exists_and_left]
  rw [Decoded.exists_illegal_iff, hlegal, exists_decodeFields_eq_legal_iff, ← Bool.not_eq_true]
  grind

/-- Settles O10: twelve words, decoded by evaluation. -/
theorem writtenOutWordsDecode : Obligations.WrittenOutWordsDecode := by
  unfold Obligations.WrittenOutWordsDecode
  decide

end Sys2Proof
end

section
/-! SUPPORT. The inverse index of tables that meet R107 (spec/40_tables.md R105, R107): a slot or a suffix
and its Code determine each other; and the statements TablesRoundTripThroughTheIndex and
DefaultTableSizes. -/

namespace Sys2Proof.Machine

/-! ### The two tables as lists -/

theorem baseAt_eq_some_iff {T : Tables} {b : Byte} {c : Char21} :
    T.baseAt b = some c ↔ T.base[b.toNat]? = some (some c) := by
  unfold Tables.baseAt
  cases T.base[b.toNat]? <;> simp

theorem mem_ext_of_extAt {T : Tables} {x : Byte} {c : Char21} (h : T.extAt x = some c) :
    (x, c) ∈ T.ext := by
  obtain ⟨before, after, hext, -⟩ := List.lookup_eq_some_iff.1 h
  rw [hext]
  exact List.mem_append_right before List.mem_cons_self

/-- What the search for a character finds is an entry of that character. -/
theorem of_find?_char {ext : List (Byte × Char21)} {c : Char21} {e : Byte × Char21}
    (h : ext.find? (·.2 = c) = some e) : e ∈ ext ∧ e.2 = c :=
  ⟨List.mem_of_find?_eq_some h, by simpa using List.find?_some h⟩

namespace TablesWf

variable {T : Tables} (wf : TablesWf T)
include wf

/-- No character stands in two slots (R107 (a)). -/
theorem slot_unique {c : Char21} {m n : Nat} (hm : T.base[m]? = some (some c))
    (hn : T.base[n]? = some (some c)) : m = n := by
  have hne (i j : Nat) (hij : i < j) (hi : T.base[i]? = some (some c)) :
      T.base[j]? ≠ some (some c) := by
    intro hj
    obtain ⟨hil, hic⟩ := List.getElem?_eq_some_iff.1 hi
    obtain ⟨hjl, hjc⟩ := List.getElem?_eq_some_iff.1 hj
    have hpair := List.pairwise_iff_getElem.1 (List.pairwise_filterMap.1 wf.baseInjective)
    exact hpair i j hil hjl hij c hic c hjc rfl
  rcases Nat.lt_trichotomy m n with h | h | h
  · exact absurd hn (hne m n h hm)
  · exact h
  · exact absurd hm (hne n m h hn)

/-- `EXT` is a map: an entry is what its key finds (R103). -/
theorem extAt_of_mem {x : Byte} {c : Char21} (h : (x, c) ∈ T.ext) : T.extAt x = some c := by
  obtain ⟨before, after, hext⟩ := List.mem_iff_append.1 h
  refine List.lookup_eq_some_iff.2 ⟨before, after, hext, fun e he => ?_⟩
  have hasc := wf.extAscending
  rw [hext, List.pairwise_append] at hasc
  obtain ⟨-, -, hlt⟩ := hasc
  have hne : x ≠ e.1 := by
    rintro rfl
    exact absurd (hlt e he _ List.mem_cons_self) (Nat.lt_irrefl _)
  simpa using hne

/-- The index answers what R105 builds it from. -/
theorem invAt_eq (c : Char21) : T.invAt c = (buildInv T.base T.ext).lookup c := by
  rw [Tables.invAt, wf.inverse]

/-- A slot's character has the slot as its Code (R107 (e)). -/
theorem invAt_of_baseAt {b : Byte} {c : Char21} (h : T.baseAt b = some c) :
    T.invAt c = some (.single b) := by
  have hslot := baseAt_eq_some_iff.1 h
  have hidx := findIdx?_eq_of_lowestSlot hslot fun k hk hc => hk.ne (wf.slot_unique hc hslot)
  rw [wf.invAt_eq, lookup_buildInv, hidx]
  simp

/-- A suffix's character has the suffix as its Code (R107 (f)). -/
theorem invAt_of_extAt {x : Byte} {c : Char21} (h : T.extAt x = some c) :
    T.invAt c = some (.escape x) := by
  have hmem := mem_ext_of_extAt h
  rw [wf.invAt_eq, lookup_buildInv_of_notMem_base (wf.disjoint _ hmem)]
  cases hf : T.ext.find? (·.2 = c) with
  | none => exact absurd (decide_eq_true rfl) (List.find?_eq_none.1 hf _ hmem)
  | some e =>
    obtain ⟨he, hc⟩ := of_find?_char hf
    obtain rfl : e = (x, c) := List.inj_on_of_nodup_map wf.extInjective he hmem hc
    rw [Option.map_some]

/-- A Code is a slot of its character or a suffix of it: the index holds nothing else. -/
theorem code_of_invAt {c : Char21} {k : Code} (h : T.invAt c = some k) :
    (∃ n < 128, k = .single (BitVec.ofNat 8 n) ∧ T.base[n]? = some (some c)) ∨
      ∃ x, k = .escape x ∧ (x, c) ∈ T.ext := by
  rw [wf.invAt_eq, lookup_buildInv] at h
  cases hn : T.base.findIdx? (· = some c) with
  | some n =>
    rw [hn, Option.map_some, Option.some_or, Option.some.injEq] at h
    obtain ⟨hlt, hc, -⟩ := List.findIdx?_eq_some_iff_getElem.1 hn
    refine .inl ⟨n, hlt.trans_eq wf.size, h.symm, ?_⟩
    rw [List.getElem?_eq_getElem hlt, of_decide_eq_true hc]
  | none =>
    rw [hn, Option.map_none, Option.none_or, Option.map_eq_some_iff] at h
    obtain ⟨⟨x, c'⟩, hf, rfl⟩ := h
    obtain ⟨he, rfl⟩ := of_find?_char hf
    exact .inr ⟨x, rfl, he⟩

/-- A single code is a byte below 0x80 other than the escape byte, whose slot holds the character. -/
theorem baseAt_of_invAt {c : Char21} {b : Byte} (h : T.invAt c = some (.single b)) :
    b.toNat ≤ 0x7F ∧ b ≠ 0x1B#8 ∧ T.baseAt b = some c := by
  obtain ⟨n, hlt, hk, hslot⟩ | ⟨x, hk, -⟩ := wf.code_of_invAt h
  · cases hk
    have hn : (BitVec.ofNat 8 n).toNat = n := Nat.mod_eq_of_lt (hlt.trans (by decide))
    refine ⟨hn.symm ▸ Nat.le_of_lt_succ hlt, fun hesc => ?_, baseAt_eq_some_iff.2 (hn.symm ▸ hslot)⟩
    obtain rfl : n = 0x1B := hn.symm.trans (congrArg BitVec.toNat hesc)
    rw [wf.escSlotEmpty] at hslot
    cases hslot
  · cases hk

/-- An escape code is a suffix of the extension table other than the escape byte. -/
theorem extAt_of_invAt {c : Char21} {x : Byte} (h : T.invAt c = some (.escape x)) :
    x ≠ 0x1B#8 ∧ T.extAt x = some c := by
  obtain ⟨n, -, hk, -⟩ | ⟨y, hk, hmem⟩ := wf.code_of_invAt h <;> cases hk
  exact ⟨wf.escNoKey _ hmem, wf.extAt_of_mem hmem⟩

/-- What the tables hold are scalar values (R100, R103). -/
theorem isScalar_of_baseAt {b : Byte} {c : Char21} (h : T.baseAt b = some c) : isScalar c = true :=
  wf.baseScalar c (List.mem_of_getElem? (baseAt_eq_some_iff.1 h))

theorem isScalar_of_extAt {x : Byte} {c : Char21} (h : T.extAt x = some c) : isScalar c = true :=
  wf.extScalar _ (mem_ext_of_extAt h)

end TablesWf

/-! ### The statements -/

/-- Settles O43: a slot or suffix is found by its character, and what is found is a slot or suffix. -/
theorem tablesRoundTripThroughTheIndex : Obligations.TablesRoundTripThroughTheIndex :=
  fun _ wf => ⟨fun _ _ _ => wf.invAt_of_baseAt, fun _ _ => wf.invAt_of_extAt,
    fun _ _ => wf.baseAt_of_invAt, fun _ _ => wf.extAt_of_invAt⟩

/-- Settles O44: the contents are counted, the index in its flat form. -/
theorem defaultTableSizes : Obligations.DefaultTableSizes := by
  have hpresent : (hwTables.base.filterMap id).length = 127 := by decide +kernel
  have hinv : (flatInv baseTable extTable).length = 137 := by decide +kernel
  exact ⟨hwTables_wf.size, hpresent, ofParameters_baseAt_escape hwParams, rfl,
    (congrArg List.length hwTables_inv).trans hinv⟩

end Sys2Proof.Machine
end

section
/-! SUPPORT. The encoder's output as a sequence of Codes (spec/41_encoder.md R142 to R146), what `ENC` and
`ENC.C` answer to the texts that have one, and the statements EncCompletes, EncCMappedCompletes and
EncodeOutputShape. -/

namespace Sys2Proof.Machine

/-! ### The bytes of Codes (R70) -/

theorem Code.length_bytes (k : Code) : (k.bytes hw).length = k.size := by cases k <;> rfl

theorem Code.size_pos (k : Code) : 1 ≤ k.size := by cases k <;> simp [Code.size]

theorem Code.size_le_two (k : Code) : k.size ≤ 2 := by cases k <;> simp [Code.size]

/-- Codes take one or two bytes each. -/
theorem length_flatMap_bytes (ks : List Code) :
    ks.length ≤ (ks.flatMap (Code.bytes hw)).length ∧
      (ks.flatMap (Code.bytes hw)).length ≤ 2 * ks.length := by
  induction ks with
  | nil => exact ⟨Nat.le_refl _, Nat.le_refl _⟩
  | cons k rest ih =>
    have hpos := k.size_pos
    have hle := k.size_le_two
    rw [List.flatMap_cons, List.length_append, List.length_cons, k.length_bytes]
    omega

/-- A well-formed sequence is the bytes of admitted Codes (R70, R71). -/
theorem wellFormedBytes_iff {T : Tables} {bytes : List Byte} :
    WellFormedBytes T bytes ↔
      ∃ ks : List Code, (∀ k ∈ ks, k.admitted T) ∧ bytes = ks.flatMap (Code.bytes hw) := by
  have hbytes : Code.bytes hw = fun k : Code => match k with
      | .single b => [b]
      | .escape s => [0x1B#8, s] := by
    funext k
    cases k <;> rfl
  rw [hbytes]
  rfl

/-- A Code that the index holds is admitted (R70, R107). -/
theorem TablesWf.admitted_of_invAt {T : Tables} (wf : TablesWf T) {c : Char21} {k : Code}
    (h : T.invAt c = some k) : k.admitted T := by
  cases k with
  | single b =>
    obtain ⟨hle, hesc, -⟩ := wf.baseAt_of_invAt h
    exact ⟨hle, hesc⟩
  | escape x =>
    obtain ⟨-, hx⟩ := wf.extAt_of_invAt h
    simp [Code.admitted, hx]

/-- With seven-bit suffixes every byte of an admitted Code has bit 7 = 0 (R73). -/
theorem SevenBitSuffixes.lt_of_mem_bytes {T : Tables} (h7 : SevenBitSuffixes T) {k : Code}
    (hk : k.admitted T) {b : Byte} (hb : b ∈ k.bytes hw) : b.toNat < 0x80 := by
  cases k with
  | single x =>
    obtain ⟨hle, -⟩ := hk
    obtain rfl : b = x := List.mem_singleton.1 hb
    exact Nat.lt_succ_of_le hle
  | escape x =>
    obtain ⟨c, hc⟩ := Option.ne_none_iff_exists'.1 hk
    obtain rfl | rfl : b = 0x1B#8 ∨ b = x := by simpa [Code.bytes] using hb
    · decide
    · exact h7 _ (mem_ext_of_extAt hc)

/-! ### What the loop of R140 gives -/

/-- A character gives the bytes of one Code: one of the index, or the space (R142, R144, R145). -/
theorem code_of_encodeChar {T : Tables} {cfg : CodecCfg} {c : Char21} {bytes : List Byte}
    (h : encodeChar hw T cfg c = .ok bytes) :
    ∃ k : Code, bytes = k.bytes hw ∧ ((∃ x, T.invAt x = some k) ∨ k = .single 0x20#8) := by
  unfold encodeChar at h
  cases hc : T.invAt c with
  | some k => simp only [hc, Result.ok.injEq] at h; exact ⟨k, h.symm, .inl ⟨c, hc⟩⟩
  | none =>
    simp only [hc, encodeUnmapped] at h
    split at h
    · cases h
    · cases hr : T.invAt cfg.repl with
      | some k => simp only [hr, Result.ok.injEq] at h; exact ⟨k, h.symm, .inl ⟨cfg.repl, hr⟩⟩
      | none => simp only [hr, Result.ok.injEq] at h; exact ⟨.single 0x20#8, h.symm, .inr rfl⟩

theorem TablesWf.code_of_encodeChar {T : Tables} (wf : TablesWf T) {cfg : CodecCfg} {c : Char21}
    {bytes : List Byte} (h : encodeChar hw T cfg c = .ok bytes) :
    ∃ k : Code, bytes = k.bytes hw ∧ k.admitted T := by
  obtain ⟨k, hb, ⟨x, hx⟩ | rfl⟩ := Machine.code_of_encodeChar h
  · exact ⟨k, hb, wf.admitted_of_invAt hx⟩
  · exact ⟨_, hb, by decide, by decide⟩

/-- A text gives the bytes of admitted Codes, one for each character. -/
theorem TablesWf.codes_of_encodeFrom {T : Tables} (wf : TablesWf T) {cfg : CodecCfg}
    {text : List Char21} {out : List Byte} (h : encodeFrom hw T cfg text = .ok out) :
    ∃ ks : List Code, ks.length = text.length ∧ (∀ k ∈ ks, k.admitted T) ∧
      out = ks.flatMap (Code.bytes hw) := by
  induction text generalizing out with
  | nil => cases h; exact ⟨[], rfl, nofun, rfl⟩
  | cons c rest ih =>
    rw [encodeFrom] at h
    cases hc : encodeChar hw T cfg c with
    | err e => simp [hc] at h
    | ok bytes =>
      cases hr : encodeFrom hw T cfg rest with
      | err e => simp [hc, hr] at h
      | ok tail =>
        obtain ⟨k, rfl, hk⟩ := wf.code_of_encodeChar hc
        obtain ⟨ks, hlen, hks, rfl⟩ := ih hr
        simp only [hc, hr, Result.ok.injEq] at h
        exact ⟨k :: ks, by simp [hlen], by simpa using ⟨hk, hks⟩, by simp [← h]⟩

/-- Mapped characters give their codes, in either mode. -/
theorem encodeFrom_of_mapped {T : Tables} (cfg : CodecCfg) {text : List Char21}
    (h : ∀ c ∈ text, T.mapped c) : encodeFrom hw T cfg text = .ok (text.flatMap T.codeBytes) :=
  encodeFrom_of_forall_ok T fun c hc => encodeChar_of_mapped T (h c hc)

/-- What `encode` gives is what its loop gives: the length check only fails (R141). -/
theorem encodeFrom_of_encodeText {P : Params} {T : Tables} {cfg : CodecCfg} {text : List Char21}
    {out : List Byte} (h : encodeText P T text cfg = .ok out) : encodeFrom P T cfg text = .ok out := by
  unfold encodeText at h
  split at h
  · cases h
  · exact h

/-- The four properties of an output that O21 states, for the loop (R146). -/
theorem encodeFrom_shape {T : Tables} (wf : TablesWf T) (h7 : SevenBitSuffixes T) {cfg : CodecCfg}
    {text : List Char21} {out : List Byte} (h : encodeFrom hw T cfg text = .ok out) :
    text.length ≤ out.length ∧ out.length ≤ 2 * text.length ∧
      (∀ b ∈ out, b.toNat < 0x80) ∧ WellFormedBytes T out := by
  obtain ⟨ks, hlen, hks, rfl⟩ := wf.codes_of_encodeFrom h
  obtain ⟨hlo, hhi⟩ := length_flatMap_bytes ks
  refine ⟨hlen ▸ hlo, hlen ▸ hhi, fun b hb => ?_, wellFormedBytes_iff.2 ⟨ks, hks, rfl⟩⟩
  obtain ⟨k, hk, hb⟩ := List.mem_flatMap.1 hb
  exact h7.lt_of_mem_bytes (hks k hk) hb

/-! ### The statements -/

/-- Settles O16: the default configuration is lenient and has no length limit, so the loop is the
concatenation of what each character gives. -/
theorem encCompletes : Obligations.EncCompletes := by
  intro s text h ht out
  have hloop : encodeFrom hw s.tables (defaultCfg hw) text = .ok out :=
    encodeFrom_of_forall_ok _ fun c _ => encodeChar_of_lenient (cfg := defaultCfg hw) _ rfl c
  refine execEnc_next.2 ⟨text, ht, ?_⟩
  rw [h.codec, encodeText_of_fits _ (defaultCfg_tooLong hw _), hloop, h.answerBytes_ok,
    State.okResponse]

/-- Settles O18: a mapped character gives its own code, whatever `STRICT` holds. -/
theorem encCMappedCompletes : Obligations.EncCMappedCompletes := by
  intro s text h ht hm hn out
  rw [exec_encC_of_fits h ht hn, encodeFrom_of_mapped _ hm, h.answerBytes_ok, State.okResponse]

/-- Settles O21: an output is the bytes of admitted Codes, one for each character. -/
theorem encodeOutputShape : Obligations.EncodeOutputShape :=
  fun _ _ _ _ wf h7 h => encodeFrom_shape wf h7 (encodeFrom_of_encodeText h)

end Sys2Proof.Machine
end

section
/-! SUPPORT. The decoder's pass (spec/42_decoder.md R163 to R173): what one byte adds to it, the scan it
equals, the Codes it may be cut at, and the statements about decoding and about the round trip. -/

namespace Sys2Proof.Machine

/-! ### A pass, byte by byte -/

/-- What a pass gives where some characters were emitted before it (R163). -/
def Result.prepend (t : List Char21) : Result (List Char21) → Result (List Char21)
  | .ok rest => .ok (t ++ rest)
  | .err e => .err e

@[simp] theorem Result.prepend_ok (t rest : List Char21) :
    (Result.ok rest).prepend t = .ok (t ++ rest) := rfl

@[simp] theorem Result.prepend_err (t : List Char21) (e : CodecError) :
    (Result.err e).prepend t = .err e := rfl

theorem Result.prepend_prepend (t u : List Char21) (r : Result (List Char21)) :
    (r.prepend u).prepend t = r.prepend (t ++ u) := by
  cases r <;> simp

theorem Result.prepend_eq_ok {t text : List Char21} {r : Result (List Char21)} :
    r.prepend t = .ok text ↔ ∃ rest, r = .ok rest ∧ text = t ++ rest := by
  cases r with
  | ok rest => simp [eq_comm]
  | err e => simp

section

variable {P : Params} {T : Tables} {high : Bool} {cfg : CodecCfg} {q q' : FsmState} {b : Byte}

/-- A byte that emits `t` puts `t` before the rest of the pass. -/
theorem runFrom_cons_of_ok {t : List Char21} (h : fsmStep P T high cfg q b = .ok (q', t))
    (rest : List Byte) :
    runFrom P T high cfg q (b :: rest) = (runFrom P T high cfg q' rest).prepend t := by
  rw [runFrom, h]
  cases hr : runFrom P T high cfg q' rest <;> simp [hr]

/-- A byte that fails ends the pass. -/
theorem runFrom_cons_of_err {e : CodecError} (h : fsmStep P T high cfg q b = .err e)
    (rest : List Byte) : runFrom P T high cfg q (b :: rest) = .err e := by
  rw [runFrom, h]

/-- The characters of the last column of R163: the tables' and the replacement. -/
theorem substituteOr_ok {e : CodecError} {r : FsmState × List Char21}
    (h : substituteOr cfg e = .ok r) : r = (.plain, [cfg.repl]) := by
  unfold substituteOr at h
  split at h <;> cases h
  rfl

/-- A plain byte that does not fail is the escape byte, or emits one character. -/
theorem plainStep_ok {t : List Char21} (h : plainStep P T high cfg b = .ok (q', t)) :
    (b = P.esc ∧ q' = .escapePending ∧ t = []) ∨
      (q' = .plain ∧ ∃ c, t = [c] ∧ (c = cfg.repl ∨ T.baseAt b = some c)) := by
  unfold plainStep at h
  split at h
  next hesc => cases h; exact .inl ⟨hesc, rfl, rfl⟩
  next =>
    right
    split at h
    · split at h
      next c hc => cases h; exact ⟨rfl, c, rfl, .inr hc⟩
      next => cases substituteOr_ok h; exact ⟨rfl, _, rfl, .inl rfl⟩
    · split at h
      · cases substituteOr_ok h; exact ⟨rfl, _, rfl, .inl rfl⟩
      · cases h; exact ⟨rfl, _, rfl, .inl rfl⟩

/-- A suffix that does not fail emits one character. -/
theorem escapeStep_ok {t : List Char21} (h : escapeStep T cfg b = .ok (q', t)) :
    q' = .plain ∧ ∃ c, t = [c] ∧ (c = cfg.repl ∨ T.extAt b = some c) := by
  unfold escapeStep at h
  split at h
  next c hc => cases h; exact ⟨rfl, c, rfl, .inr hc⟩
  next => cases substituteOr_ok h; exact ⟨rfl, _, rfl, .inl rfl⟩

/-- What a byte that does not fail can do: become pending, or emit one character of the tables or the
replacement (R163). -/
theorem fsmStep_ok {t : List Char21} (h : fsmStep P T high cfg q b = .ok (q', t)) :
    (q = .plain ∧ q' = .escapePending ∧ t = []) ∨
      (q' = .plain ∧ ∃ c, t = [c] ∧ (c = cfg.repl ∨ T.baseAt b = some c ∨ T.extAt b = some c)) := by
  cases q with
  | plain =>
    obtain ⟨-, hq, ht⟩ | ⟨hq, c, ht, hc⟩ := plainStep_ok h
    · exact .inl ⟨rfl, hq, ht⟩
    · exact .inr ⟨hq, c, ht, hc.imp_right .inl⟩
  | escapePending =>
    obtain ⟨hq, c, ht, hc⟩ := escapeStep_ok h
    exact .inr ⟨hq, c, ht, hc.imp_right .inr⟩

/-- A pass that gives a text over a first byte: the byte emits the head of it. -/
theorem runFrom_cons_ok {rest : List Byte} {text : List Char21}
    (h : runFrom P T high cfg q (b :: rest) = .ok text) :
    ∃ q' t u, fsmStep P T high cfg q b = .ok (q', t) ∧ runFrom P T high cfg q' rest = .ok u ∧
      text = t ++ u := by
  cases hs : fsmStep P T high cfg q b with
  | err e => rw [runFrom_cons_of_err hs] at h; cases h
  | ok r =>
    rw [runFrom_cons_of_ok hs, Result.prepend_eq_ok] at h
    obtain ⟨u, hu, ht⟩ := h
    exact ⟨r.1, r.2, u, rfl, hu, ht⟩

/-- A pass that gives a text at the end of the input (R164). -/
theorem runFrom_nil_ok {text : List Char21} (h : runFrom P T high cfg q [] = .ok text) :
    (q = .plain ∧ text = []) ∨ (q = .escapePending ∧ text = [cfg.repl]) := by
  rw [runFrom_nil] at h
  cases q with
  | plain => cases h; exact .inl ⟨rfl, rfl⟩
  | escapePending =>
    refine .inr ⟨rfl, ?_⟩
    cases hs : cfg.strict <;> simp [hs] at h
    exact h.symm

/-! ### Facts about whole passes -/

/-- The bytes a state has consumed and not yet answered. -/
def FsmState.owed : FsmState → Nat
  | .plain => 0
  | .escapePending => 1

@[simp] theorem FsmState.owed_plain : FsmState.plain.owed = 0 := rfl
@[simp] theorem FsmState.owed_escapePending : FsmState.escapePending.owed = 1 := rfl

theorem FsmState.owed_le_one (q : FsmState) : q.owed ≤ 1 := by cases q <;> simp

/-- Each character of a pass answers one byte or two (R172). -/
theorem runFrom_length {bytes : List Byte} {text : List Char21}
    (h : runFrom P T high cfg q bytes = .ok text) :
    bytes.length + q.owed ≤ 2 * text.length ∧ text.length ≤ bytes.length + q.owed := by
  induction bytes generalizing q text with
  | nil =>
    obtain ⟨rfl, rfl⟩ | ⟨rfl, rfl⟩ := runFrom_nil_ok h <;> simp
  | cons b rest ih =>
    obtain ⟨q', t, u, hs, hu, rfl⟩ := runFrom_cons_ok h
    have hlen := ih hu
    rw [List.length_cons, List.length_append]
    obtain ⟨rfl, rfl, rfl⟩ | ⟨rfl, c, rfl, -⟩ := fsmStep_ok hs
    · rw [FsmState.owed_escapePending] at hlen
      rw [FsmState.owed_plain, List.length_nil]
      omega
    · have howed := q.owed_le_one
      rw [FsmState.owed_plain] at hlen
      rw [List.length_singleton]
      omega

/-- A pass gives scalar values: the tables' and the replacement (R10). -/
theorem TablesWf.isScalar_of_mem_runFrom (wf : TablesWf T) (hrepl : isScalar cfg.repl = true)
    {bytes : List Byte} {text : List Char21} (h : runFrom P T high cfg q bytes = .ok text) :
    ∀ c ∈ text, isScalar c = true := by
  induction bytes generalizing q text with
  | nil =>
    obtain ⟨-, rfl⟩ | ⟨-, rfl⟩ := runFrom_nil_ok h
    · exact nofun
    · simpa using hrepl
  | cons b rest ih =>
    obtain ⟨q', t, u, hs, hu, rfl⟩ := runFrom_cons_ok h
    obtain ⟨-, -, rfl⟩ | ⟨-, c, rfl, hc⟩ := fsmStep_ok hs
    · exact ih hu
    · have hscalar : isScalar c = true := by
        obtain rfl | hc | hc := hc
        · exact hrepl
        · exact wf.isScalar_of_baseAt hc
        · exact wf.isScalar_of_extAt hc
      simpa [hscalar] using ih hu

/-- Without `STRICT` no byte fails and the end of the input does not either. -/
theorem runFrom_lenient (hs : cfg.strict = false) (P : Params) (T : Tables) (high : Bool)
    (q : FsmState) (bytes : List Byte) : ∃ text, runFrom P T high cfg q bytes = .ok text := by
  have hsub (e : CodecError) : substituteOr cfg e = .ok (.plain, [cfg.repl]) := by
    rw [substituteOr, hs, if_neg Bool.false_ne_true]
  have hstep (q : FsmState) (b : Byte) : ∃ r, fsmStep P T high cfg q b = .ok r := by
    cases q with
    | plain =>
      simp only [fsmStep, plainStep, hsub]
      repeat' split
      all_goals exact ⟨_, rfl⟩
    | escapePending =>
      simp only [fsmStep, escapeStep, hsub]
      split <;> exact ⟨_, rfl⟩
  induction bytes generalizing q with
  | nil =>
    rw [runFrom_nil, hs]
    cases q <;> exact ⟨_, rfl⟩
  | cons b rest ih =>
    obtain ⟨⟨q', t⟩, hr⟩ := hstep q b
    obtain ⟨u, hu⟩ := ih q'
    exact ⟨t ++ u, by rw [runFrom_cons_of_ok hr, hu, Result.prepend_ok]⟩

end

/-- `InvalidByte` names a byte below 0x80 whose slot is empty, and which is not the escape byte (R163). -/
theorem emptySlot_of_runFrom_invalidByte {T : Tables} {cfg : CodecCfg} {q : FsmState}
    {bytes : List Byte} {b : Byte} (h : runFrom hw T false cfg q bytes = .err (.invalidByte b)) :
    b ≠ 0x1B#8 ∧ b.toNat < 128 ∧ T.baseAt b = none := by
  induction bytes generalizing q with
  | nil =>
    rw [runFrom_nil] at h
    cases q <;> cases hs : cfg.strict <;> simp [hs] at h
  | cons x rest ih =>
    cases hs : fsmStep hw T false cfg q x with
    | ok r =>
      rw [runFrom_cons_of_ok hs] at h
      cases hr : runFrom hw T false cfg r.1 rest with
      | ok u => simp [hr] at h
      | err e => rw [hr, Result.prepend_err] at h; exact ih (hr.trans h)
    | err e =>
      rw [runFrom_cons_of_err hs] at h
      cases h
      cases q with
      | escapePending => cases escapeStep_err hs
      | plain =>
        cases plainStep_err hs
        have hesc : b ≠ 0x1B#8 := by rintro rfl; cases hs
        by_cases hhigh : 0x80 ≤ b.toNat
        · rw [fsmStep, plainStep_highByte T cfg hhigh] at hs
          cases hs
        · have hlt := Nat.lt_of_not_le hhigh
          refine ⟨hesc, hlt, ?_⟩
          rw [fsmStep, plainStep_sevenBit T false cfg (Nat.le_of_lt_succ hlt) hesc] at hs
          cases hb : T.baseAt b with
          | none => rfl
          | some c => rw [hb] at hs; cases hs

/-- The escape byte's slot is the only empty one of the default base table (R102). -/
theorem hwTables_baseAt_ne_none {b : Byte} (hesc : b ≠ 0x1B#8) (hlt : b.toNat < 128) :
    hwTables.baseAt b ≠ none := by
  have hslots : ∀ n < 128, n ≠ 0x1B → (baseTable[n]?).getD none ≠ none := by decide +kernel
  rw [hwTables_eq]
  exact hslots b.toNat hlt fun h => hesc (BitVec.eq_of_toNat_eq h)

/-! ### The scan (R165) -/

/-- Two bytes of the scan at once, an escape pair or a plain byte: what the state machine does. -/
theorem runPass_eq_scan (T : Tables) (cfg : CodecCfg) :
    ∀ bytes, runPass hw T bytes cfg = scan T cfg.strict cfg.repl bytes
  | [] => rfl
  | [b] => by
    have hend (q : FsmState) := runFrom_nil T hw false cfg q
    by_cases hesc : b = 0x1B#8
    · simp [runPass, runFrom_plain_cons, scan, hend, hesc]
    · by_cases hhigh : 0x80 ≤ b.toNat
      · simp [runPass, runFrom_plain_cons, scan, hend, hesc, hhigh]
      · cases hb : T.baseAt b <;> simp [runPass, runFrom_plain_cons, scan, hend, hesc, hhigh, hb]
  | b :: x :: rest => by
    have hpair := runPass_eq_scan T cfg rest
    have hone := runPass_eq_scan T cfg (x :: rest)
    rw [runPass] at hpair hone
    rw [runPass, runFrom_plain_cons, runFrom_escape_cons, hpair, hone, scan]
    by_cases hesc : b = 0x1B#8
    · cases T.extAt x <;> cases scan T cfg.strict cfg.repl rest <;> simp [hesc]
    · by_cases hhigh : 0x80 ≤ b.toNat
      · cases scan T cfg.strict cfg.repl (x :: rest) <;> simp [hesc, hhigh]
      · cases T.baseAt b <;> cases scan T cfg.strict cfg.repl (x :: rest) <;> simp [hesc, hhigh]

/-! ### Code boundaries (R171) -/

/-- An escape pair emits the suffix's character and leaves the pass in `Plain`. -/
theorem runPass_escapePair {T : Tables} {x : Byte} {c : Char21} (hx : T.extAt x = some c)
    (cfg : CodecCfg) (rest : List Byte) :
    runPass hw T (0x1B#8 :: x :: rest) cfg = (runPass hw T rest cfg).prepend [c] := by
  rw [runPass, runFrom_cons_of_ok (q := .plain) (plainStep_escape T false cfg),
    runFrom_cons_of_ok (q := .escapePending) (escapeStep_of_some T cfg hx), Result.prepend_prepend,
    List.nil_append, runPass]

/-- A mapped character's code emits the character and leaves the pass in `Plain` (R150). -/
theorem TablesWf.runPass_codeBytes_append {T : Tables} (wf : TablesWf T) {c : Char21}
    (hc : T.mapped c) (cfg : CodecCfg) (rest : List Byte) :
    runPass hw T (T.codeBytes c ++ rest) cfg = (runPass hw T rest cfg).prepend [c] := by
  unfold Tables.codeBytes
  cases hk : T.invAt c with
  | none => exact absurd hk hc
  | some k =>
    cases k with
    | single b =>
      obtain ⟨hle, hesc, hb⟩ := wf.baseAt_of_invAt hk
      refine runFrom_cons_of_ok (q := .plain) (q' := .plain) ?_ rest
      rw [fsmStep, plainStep_sevenBit T false cfg hle hesc, hb, Option.elim_some]
    | escape x =>
      obtain ⟨-, hx⟩ := wf.extAt_of_invAt hk
      exact runPass_escapePair hx cfg rest

/-- The codes of a mapped text decode to the text. -/
theorem TablesWf.runPass_flatMap_codeBytes {T : Tables} (wf : TablesWf T) (cfg : CodecCfg)
    {text : List Char21} (h : ∀ c ∈ text, T.mapped c) :
    runPass hw T (text.flatMap T.codeBytes) cfg = .ok text := by
  induction text with
  | nil => rfl
  | cons c rest ih =>
    have hrest := ih fun x hx => h x (List.mem_cons_of_mem c hx)
    rw [List.flatMap_cons, wf.runPass_codeBytes_append (h c List.mem_cons_self), hrest,
      Result.prepend_ok, List.singleton_append]

/-- An admitted Code ends in `Plain` or fails, whatever follows it. -/
theorem runPass_bytes_append {T : Tables} {k : Code} (hk : k.admitted T) (cfg : CodecCfg) :
    (∃ t, ∀ rest, runPass hw T (k.bytes hw ++ rest) cfg = (runPass hw T rest cfg).prepend t) ∨
      ∃ e, ∀ rest, runPass hw T (k.bytes hw ++ rest) cfg = .err e := by
  cases k with
  | single b =>
    obtain ⟨-, hesc⟩ := hk
    cases hs : fsmStep hw T false cfg .plain b with
    | err e => exact .inr ⟨e, runFrom_cons_of_err hs⟩
    | ok r =>
      obtain ⟨q', t⟩ := r
      obtain ⟨hb, -⟩ | ⟨rfl, -⟩ := plainStep_ok hs
      · exact absurd hb hesc
      · exact .inl ⟨t, runFrom_cons_of_ok hs⟩
  | escape x =>
    obtain ⟨c, hx⟩ := Option.ne_none_iff_exists'.1 hk
    exact .inl ⟨[c], runPass_escapePair hx cfg⟩

/-- A pass over admitted Codes that gives a text goes on in `Plain` with what follows. -/
theorem runPass_flatMap_bytes_append {T : Tables} {cfg : CodecCfg} {ks : List Code}
    {text : List Char21} (hks : ∀ k ∈ ks, k.admitted T)
    (h : runPass hw T (ks.flatMap (Code.bytes hw)) cfg = .ok text) (back : List Byte) :
    runPass hw T (ks.flatMap (Code.bytes hw) ++ back) cfg = (runPass hw T back cfg).prepend text := by
  induction ks generalizing text with
  | nil =>
    obtain rfl : [] = text := by simpa [runPass, runFrom_nil] using h
    cases hb : runPass hw T back cfg <;> simp [hb]
  | cons k rest ih =>
    rw [List.flatMap_cons] at h ⊢
    obtain ⟨t, hcode⟩ | ⟨e, hcode⟩ := runPass_bytes_append (hks k List.mem_cons_self) cfg
    · rw [hcode, Result.prepend_eq_ok] at h
      obtain ⟨u, hu, rfl⟩ := h
      rw [List.append_assoc, hcode, ih (fun j hj => hks j (List.mem_cons_of_mem k hj)) hu,
        Result.prepend_prepend]
    · rw [hcode] at h
      cases h

/-! ### `decode` and the responses -/

/-- A length that the limit admits passes the check (R141, R161). -/
theorem CodecCfg.tooLong_eq_false {cfg : CodecCfg} {n : Nat} (h : cfg.max = 0 ∨ n ≤ cfg.max) :
    cfg.tooLong n = false := by
  rw [← Bool.not_eq_true, CodecCfg.tooLong_eq_true]
  omega

theorem decodeBytes_of_fits {T : Tables} {bytes : List Byte} {cfg : CodecCfg}
    (h : cfg.tooLong bytes.length = false) : decodeBytes hw T bytes cfg = runPass hw T bytes cfg := by
  rw [decodeBytes_eq, h, if_neg Bool.false_ne_true]

theorem runPass_of_decodeBytes {T : Tables} {bytes : List Byte} {cfg : CodecCfg}
    {text : List Char21} (h : decodeBytes hw T bytes cfg = .ok text) :
    runPass hw T bytes cfg = .ok text := by
  rw [decodeBytes_eq] at h
  split at h
  · cases h
  · exact h

/-- The response to decoded characters: `RESULT` is their number, in 32 bits (R27). -/
theorem State.OfHardware.answerText_ok {s : State} (h : s.OfHardware) (text : List Char21) :
    s.answerText (.ok text) = s.okResponse (.ofText text) (BitVec.ofNat 32 text.length) := by
  rw [State.answerText, h.lenWord, State.succeed_eq_okResponse]

/-- Every error of a decode is reported by R244's table. -/
theorem State.report_decodeBytes {T : Tables} {bytes : List Byte} {cfg : CodecCfg} {e : CodecError}
    (h : decodeBytes hw T bytes cfg = .err e) (s : State) : s.report e = s.errorResponse e := by
  refine s.report_eq_errorResponse e fun c cp he => ?_
  rw [decodeBytes_eq, he] at h
  split at h
  · cases h
  · exact absurd h (runFrom_ne_unsupported T hw false cfg .plain bytes c cp)

/-! ### The statements -/

/-- Settles O22: the loop and the pass are total without `STRICT`, and without a limit nothing else can
fail. -/
theorem nonStrictModeIsTotal : Obligations.NonStrictModeIsTotal := by
  intro T cfg text bytes hs hmax
  have hfits (n : Nat) : cfg.tooLong n = false := CodecCfg.tooLong_eq_false (.inl hmax)
  constructor
  · rw [encodeText_of_fits T (hfits _)]
    exact ⟨_, encodeFrom_of_forall_ok T fun c _ => encodeChar_of_lenient T hs c⟩
  · rw [decodeBytes_of_fits (hfits _)]
    exact runFrom_lenient hs hw T false .plain bytes

/-- Settles O24: an escape pair is two steps of the machine, any other byte one. -/
theorem stateMachineEqualsScan : Obligations.StateMachineEqualsScan := runPass_eq_scan

/-- Settles O25: the default configuration is lenient and has no length limit. -/
theorem decCompletes : Obligations.DecCompletes := by
  intro s bytes h hb
  obtain ⟨text, htext⟩ := runFrom_lenient (cfg := defaultCfg hw) rfl hw s.tables false .plain bytes
  refine ⟨text, (runPass_eq_scan s.tables (defaultCfg hw) bytes).symm.trans htext,
    execDec_next.2 ⟨bytes, hb, ?_⟩⟩
  rw [h.codec, decodeBytes_of_fits (defaultCfg_tooLong hw _), runPass, htext, h.answerText_ok,
    State.okResponse]

/-- Settles O26: within the limit the command answers the pass, which is the scan. -/
theorem decCAnswersTheScan : Obligations.DecCAnswersTheScan := by
  intro s bytes h hb hn
  have hfits := h.registerCfg_fits hn
  have hscan : decodeBytes hw s.tables bytes s.registerCfg =
      scan s.tables (s.cfg.getLsbD 0) (s.repl.extractLsb' 0 21) bytes :=
    (decodeBytes_of_fits hfits).trans (runPass_eq_scan s.tables s.registerCfg bytes)
  rw [exec_decC h hb]
  cases hd : decodeBytes hw s.tables bytes s.registerCfg with
  | ok text => rw [← hscan, hd, h.answerText_ok]
  | err e => rw [← hscan, hd, State.answerText, s.report_decodeBytes hd]

/-- Settles O28: `VALIDATE` stands in neither the length check nor the pass. -/
theorem validationChangesNothing : Obligations.ValidationChangesNothing := by
  intro T bytes cfg
  simp only [decodeBytes_eq, runPass_eq_scan, CodecCfg.tooLong]

/-- Settles O29: each such byte is the row T4. -/
theorem highBytesNeverFail : Obligations.HighBytesNeverFail := by
  intro T cfg bytes h
  induction bytes with
  | nil => rfl
  | cons b rest ih =>
    have hstep : fsmStep hw T false cfg .plain b = .ok (.plain, [cfg.repl]) :=
      plainStep_highByte T cfg (h b List.mem_cons_self)
    have hrest := ih fun x hx => h x (List.mem_cons_of_mem b hx)
    rw [runPass] at hrest ⊢
    rw [runFrom_cons_of_ok hstep, hrest, Result.prepend_ok, List.length_cons, List.replicate_succ,
      List.singleton_append]

/-- Settles O30: the error names an empty slot other than 0x1B, and the default table has none. -/
theorem invalidByteUnreachableWithDefaultTables :
    Obligations.InvalidByteUnreachableWithDefaultTables := by
  intro cfg bytes b h
  rw [decodeBytes_eq] at h
  split at h
  · cases h
  · obtain ⟨hesc, hlt, hnone⟩ := emptySlot_of_runFrom_invalidByte h
    exact hwTables_baseAt_ne_none hesc hlt hnone

/-- Settles O31: a pass starts with no byte owed. -/
theorem decodeOutputShape : Obligations.DecodeOutputShape := by
  intro T cfg bytes text h
  obtain ⟨hlo, hhi⟩ := runFrom_length (runPass_of_decodeBytes h)
  rw [FsmState.owed_plain] at hlo hhi
  omega

/-- Settles O32: admitted Codes leave the pass in `Plain`. -/
theorem splitAtCodeBoundary : Obligations.SplitAtCodeBoundary := by
  intro T cfg front back text hwf h
  obtain ⟨ks, hks, rfl⟩ := wellFormedBytes_iff.1 hwf
  rw [runPass_flatMap_bytes_append hks h]
  cases runPass hw T back cfg <;> rfl

/-- Settles O33: the code of a mapped character is a pass of its own. -/
theorem roundTripOfCharacter : Obligations.RoundTripOfCharacter := by
  intro T cfg cfg' c wf hc hmax hmax'
  constructor
  · rw [encodeText_of_fits T (CodecCfg.tooLong_eq_false hmax)]
    simpa using encodeFrom_of_mapped cfg (text := [c]) (by simpa using hc)
  · rw [decodeBytes_of_fits (CodecCfg.tooLong_eq_false hmax')]
    simpa using wf.runPass_flatMap_codeBytes cfg' (text := [c]) (by simpa using hc)

/-- Settles O34: the output is the codes of the characters in order, and they decode in order. -/
theorem roundTripOfText : Obligations.RoundTripOfText := by
  intro T cfg cfg' text out wf hm h hmax'
  obtain rfl : text.flatMap T.codeBytes = out :=
    Result.ok.inj ((encodeFrom_of_mapped cfg hm).symm.trans (encodeFrom_of_encodeText h))
  rw [decodeBytes_of_fits (CodecCfg.tooLong_eq_false hmax'), wf.runPass_flatMap_codeBytes cfg' hm]

end Sys2Proof.Machine
end

section
/-! SUPPORT. The invariant of the state between transactions (spec/10_state.md R20 to R30): each operation
on the state keeps it, so a command does, a transaction does, and a step does; and the statements
InvariantAtReset and EveryStepKeepsTheInvariant. -/

namespace Sys2Proof.Machine

/-! ### Zero-extended register fields -/

theorem extractLsb'_low_setWidth {n m : Nat} (x : BitVec n) :
    (x.setWidth (m + n)).extractLsb' 0 n = x := by
  ext k hk
  simp [hk, Nat.lt_add_left m hk]

theorem extractLsb'_high_setWidth {n m : Nat} (x : BitVec n) :
    (x.setWidth (m + n)).extractLsb' n m = 0#m := by
  ext k hk
  simp

/-! ### The `STATUS` words (R25) -/

/-- The relations that R25 states of the `STATUS` word alone. -/
def StatusFits (status : Word) : Prop :=
  status.extractLsb' 8 24 = 0#24 ∧ (status.extractLsb' 2 3).toNat ≤ 4 ∧
  status.extractLsb' 6 2 ≠ 3#2 ∧
  (status.getLsbD 1 = true ↔ status.extractLsb' 2 3 ≠ 0#3) ∧
  (status.extractLsb' 6 2 ≠ 0#2 ↔ status.extractLsb' 2 3 = 4#3) ∧
  (status.getLsbD 5 = true → status.getLsbD 1 = false)

theorem statusFits_zero : StatusFits 0#32 := by unfold StatusFits; decide

theorem statusFits_ok : StatusFits statusOk := by unfold StatusFits; decide

theorem statusFits_illegal : StatusFits statusIllegal := by unfold StatusFits; decide

/-- The five words of R244's table, with the kind each reports. -/
theorem statusErr_fits (e : CodecError) :
    StatusFits (statusErr e) ∧ (statusErr e).getLsbD 0 = true ∧
      (statusErr e).extractLsb' 2 3 = e.kind := by
  unfold StatusFits
  rw [statusErr_eq]
  cases e with
  | malformedData r => cases r <;> simp only [CodecError.kind] <;> decide
  | _ => simp only [CodecError.kind]; decide

/-- The payload of an error stands in the low bits of `ERRINFO` (R26). -/
theorem errinfoFits_info (e : CodecError) : ErrinfoFits e.kind e.info := by
  cases e with
  | unsupportedCharacter c cp =>
    exact ⟨nofun, fun _ => extractLsb'_high_setWidth (n := 21) (m := 11) _, nofun, nofun, nofun⟩
  | invalidEscapeSequence x =>
    exact ⟨nofun, nofun, fun _ => extractLsb'_high_setWidth (n := 8) (m := 24) x, nofun, nofun⟩
  | invalidByte b =>
    exact ⟨nofun, nofun, nofun, fun _ => extractLsb'_high_setWidth (n := 8) (m := 24) b, nofun⟩
  | malformedData r => exact ⟨nofun, nofun, nofun, nofun, fun _ => rfl⟩

theorem errinfoFits_zero (kind : BitVec 3) : ErrinfoFits kind 0#32 :=
  ⟨fun _ => rfl, fun _ => by decide, fun _ => by decide, fun _ => by decide, fun _ => rfl⟩

/-! ### Admitted outputs (R30, R73) -/

theorem outFits_ofBytes {out : List Byte} (h : ∀ b ∈ out, b.toNat < 0x80) :
    OutFits (.ofBytes out) := by
  cases out with
  | nil => trivial
  | cons b bs => exact h

theorem outFits_ofText {text : List Char21} (h : ∀ c ∈ text, isScalar c = true) :
    OutFits (.ofText text) := by
  cases text with
  | nil => trivial
  | cons c cs => exact h

/-! ### The operations on the state -/

namespace StateInv

variable {s : State} (inv : StateInv s)
include inv

theorem respond (r : Response) : StateInv (s.respond r) :=
  { inv with inputEmpty := rfl }

theorem withPending (ts : List Transaction) : StateInv (s.withPending ts) :=
  { inv with }

/-- A response whose `STATUS` is one of the block's words, with an admitted output. -/
theorem withResponse {status errinfo result : Word} {out : Payload} (hstatus : StatusFits status)
    (hdone : status.getLsbD 0 = true) (hinfo : ErrinfoFits (status.extractLsb' 2 3) errinfo)
    (hquiet : status.getLsbD 1 = true ∨ status.getLsbD 5 = true → result = 0#32 ∧ out = .empty)
    (hlen : out.length ≤ 2 * s.params.inCap) (hout : OutFits out) :
    StateInv { s with status := status, errinfo := errinfo, result := result, out := out,
                      fsm := 0#32 } := by
  obtain ⟨hreserved, hkind, hreason, herr, hmalformed, hillegal⟩ := hstatus
  exact
    { inv with
      statusReserved := hreserved, kindRange := hkind, reasonRange := hreason, errIffKind := herr
      reasonIffMalformed := hmalformed, illegalNoErr := hillegal, errinfoFits := hinfo
      quietOnError := hquiet, notDone := fun h => absurd (hdone.symm.trans h) Bool.noConfusion
      fsmPlain := rfl, outBound := hlen, outFits := hout }

theorem succeed {out : Payload} (result : Word) (hlen : out.length ≤ 2 * s.params.inCap)
    (hout : OutFits out) : StateInv (s.succeed out result) :=
  inv.withResponse statusFits_ok (by decide) (errinfoFits_zero _) (fun h => absurd h (by decide))
    hlen hout

/-- A command that leaves its result in `RESULT` alone. -/
theorem succeed_empty (result : Word) : StateInv (s.succeed .empty result) :=
  inv.succeed result (Nat.zero_le _) trivial

theorem report (e : CodecError) : StateInv (s.report e) := by
  obtain ⟨hfits, hdone, hkind⟩ := statusErr_fits e
  exact inv.withResponse hfits hdone (hkind ▸ errinfoFits_info e) (fun _ => ⟨rfl, rfl⟩)
    (Nat.zero_le _) trivial

theorem illegalVerdict : StateInv s.illegalVerdict :=
  inv.withResponse statusFits_illegal (by decide) (errinfoFits_zero _) (fun _ => ⟨rfl, rfl⟩)
    (Nat.zero_le _) trivial

/-- A word whose bits above `CFG.VALIDATE` are zero may be put in `CFG` (R22). -/
theorem withCfg {v : Word} (hv : v.extractLsb' 2 30 = 0#30) : StateInv { s with cfg := v } :=
  { inv with cfgReserved := hv }

/-- A scalar value may be put in `REPL` (R23). -/
theorem withRepl {c : Char21} (hc : isScalar c = true) :
    StateInv { s with repl := c.setWidth 32 } :=
  { inv with
    replReserved := extractLsb'_high_setWidth (n := 21) (m := 11) c
    replScalar :=
      (congrArg isScalar (extractLsb'_low_setWidth (n := 21) (m := 11) c)).trans hc }

theorem withMaxlen (v : Word) : StateInv { s with maxlen := v } := { inv with }

theorem loadCfg {cfg : CodecCfg} (hrepl : isScalar cfg.repl = true) : StateInv (s.loadCfg cfg) := by
  have hcfg : (0#30 ++ BitVec.ofBool cfg.validate ++ BitVec.ofBool cfg.strict).extractLsb' 2 30 =
      0#30 := by
    cases cfg.validate <;> cases cfg.strict <;> decide
  exact ((inv.withCfg hcfg).withRepl hrepl).withMaxlen _

theorem writeReg {i : Nat} {v : Word} {u : State} (h : s.writeReg i v = .ok u) : StateInv u := by
  obtain ⟨-, rfl⟩ | ⟨-, hv, rfl⟩ | ⟨-, rfl⟩ | ⟨-, -, rfl⟩ := writeReg_ok h
  · exact inv.withCfg (extractLsb'_high_setWidth (n := 2) (m := 30) _)
  · exact inv.withRepl hv
  · exact inv.withMaxlen _
  · exact inv

end StateInv

/-- The state after `RESET` of a block of this hardware, beside a port that holds no payload. -/
theorem stateInv_resetOf {P : BlockParams} {port : Port}
    (hP : (State.resetOf P port).OfHardware) (hcap : 2 * P.inCap ≤ 2 ^ P.lenW - 1)
    (hinput : port.input = .empty) : StateInv (State.resetOf P port) := by
  have htables : (State.resetOf P port).tables = hwTables := hP.tables
  have hrepl : (State.resetOf P port).repl = (0xFFFD#21).setWidth 32 :=
    congrArg (fun p : Params => p.defaultRepl.setWidth 32) hP.codec
  obtain ⟨hreserved, hkind, hreason, herr, hmalformed, hillegal⟩ := statusFits_zero
  exact
    { ofHardware := hP, tablesWf := htables ▸ hwTables_wf, sevenBit := htables ▸ hwTables_sevenBit
      cfgReserved := (by decide : (0#32).extractLsb' 2 30 = 0#30)
      replReserved := by rw [hrepl]; decide
      replScalar := by rw [State.replChar, hrepl]; decide
      statusReserved := hreserved, kindRange := hkind, reasonRange := hreason, errIffKind := herr
      reasonIffMalformed := hmalformed, illegalNoErr := hillegal, errinfoFits := errinfoFits_zero _
      quietOnError := fun _ => ⟨rfl, rfl⟩, notDone := fun _ => ⟨rfl, rfl, rfl, rfl⟩
      fsmPlain := rfl, outBound := Nat.zero_le _, outFits := trivial, inCapBound := hcap
      inputEmpty := hinput }

theorem StateInv.resetBlock {s : State} (inv : StateInv s) : StateInv s.resetBlock :=
  stateInv_resetOf (inv.ofHardware.of_params_eq rfl) inv.inCapBound inv.inputEmpty

/-! ### Commands -/

section

variable (s : State) (p : Payload) (r : Response)

/-- Once a command has responded, its payload is gone from the state (R20). -/
theorem respond_answerBytes_withInput (a : Result (List Byte)) :
    ((s.withInput p).answerBytes a).respond r = (s.answerBytes a).respond r := by cases a <;> rfl

theorem respond_answerText_withInput (a : Result (List Char21)) :
    ((s.withInput p).answerText a).respond r = (s.answerText a).respond r := by cases a <;> rfl

theorem respond_answerCount_withInput (a : Result Nat) :
    ((s.withInput p).answerCount a).respond r = (s.answerCount a).respond r := by cases a <;> rfl

end

namespace StateInv

variable {s : State} (inv : StateInv s)
include inv

/-- The answer to an encoding: at most two bytes for each character of the payload, each below 0x80. -/
theorem answerBytes {text : List Char21} (hlen : text.length ≤ s.params.inCap) (cfg : CodecCfg) :
    StateInv (s.answerBytes (encodeText s.params.codec s.tables text cfg)) := by
  rw [inv.ofHardware.codec]
  obtain ⟨out, hok, ha⟩ | ⟨e, -, ha⟩ := s.answerBytes_cases (encodeText hw s.tables text cfg)
  · obtain ⟨-, hle, hbits, -⟩ :=
      encodeFrom_shape inv.tablesWf inv.sevenBit (encodeFrom_of_encodeText hok)
    rw [ha]
    refine inv.succeed _ ?_ (outFits_ofBytes hbits)
    rw [Payload.length_ofBytes]
    omega
  · rw [ha]
    exact inv.report e

/-- The answer to a decoding: at most one character for each byte of the payload, each a scalar value. -/
theorem answerText {bytes : List Byte} (hlen : bytes.length ≤ s.params.inCap) {cfg : CodecCfg}
    (hrepl : isScalar cfg.repl = true) :
    StateInv (s.answerText (decodeBytes s.params.codec s.tables bytes cfg)) := by
  rw [inv.ofHardware.codec]
  obtain ⟨text, hok, ha⟩ | ⟨e, -, ha⟩ := s.answerText_cases (decodeBytes hw s.tables bytes cfg)
  · have hpass := runPass_of_decodeBytes hok
    obtain ⟨-, hle⟩ := runFrom_length hpass
    rw [ha]
    refine inv.succeed _ ?_ (outFits_ofText (inv.tablesWf.isScalar_of_mem_runFrom hrepl hpass))
    rw [Payload.length_ofText]
    rw [FsmState.owed_plain] at hle
    omega
  · rw [ha]
    exact inv.report e

theorem answerCount (r : Result Nat) : StateInv (s.answerCount r) := by
  obtain ⟨n, -, ha⟩ | ⟨e, -, ha⟩ := s.answerCount_cases r
  · rw [ha]
    exact inv.succeed_empty _
  · rw [ha]
    exact inv.report e

/-- The replacement character of both presets is a scalar value. -/
theorem isScalar_defaultRepl : isScalar s.params.codec.defaultRepl = true := by
  rw [inv.ofHardware.codec]
  decide

/-- A command keeps the invariant once it has responded: the payload it runs with is gone by then, and it
reads as much from `s`, in which no payload stands. -/
theorem exec {i : Instr} {p : Payload} {u : State} (h : exec i (s.withInput p) = .next u)
    (r : Response) : StateInv (u.respond r) := by
  cases i with
  | enc =>
    obtain ⟨text, ⟨-, hlen, -⟩, rfl⟩ := execEnc_next.1 h
    rw [respond_answerBytes_withInput]
    exact (inv.answerBytes hlen _).respond r
  | encC =>
    obtain ⟨text, ⟨-, hlen, -⟩, rfl⟩ := execEncC_next.1 h
    rw [respond_answerBytes_withInput]
    exact (inv.answerBytes hlen _).respond r
  | dec =>
    obtain ⟨bytes, ⟨-, hlen⟩, rfl⟩ := execDec_next.1 h
    rw [respond_answerText_withInput]
    exact (inv.answerText hlen inv.isScalar_defaultRepl).respond r
  | decC =>
    obtain ⟨bytes, ⟨-, hlen⟩, rfl⟩ := execDecC_next.1 h
    rw [respond_answerText_withInput]
    exact (inv.answerText hlen inv.replScalar).respond r
  | elen =>
    obtain ⟨text, -, rfl⟩ := execElen_next.1 h
    rw [respond_answerCount_withInput]
    exact (inv.answerCount _).respond r
  | compat =>
    obtain ⟨text, -, rfl⟩ := execCompat_next.1 h
    exact (inv.succeed_empty _).respond r
  | lkc c =>
    obtain ⟨-, rfl⟩ := execLkc_next.1 h
    exact (inv.succeed_empty _).respond r
  | lkb b =>
    obtain ⟨-, rfl⟩ := execLkb_next.1 h
    exact (inv.succeed_empty _).respond r
  | lke x =>
    obtain ⟨-, rfl⟩ := execLke_next.1 h
    exact (inv.succeed_empty _).respond r
  | cfgd =>
    obtain ⟨-, rfl⟩ := execCfgd_next.1 h
    exact ((inv.loadCfg (cfg := defaultCfg _) inv.isScalar_defaultRepl).succeed_empty _).respond r
  | cfgs =>
    obtain ⟨-, rfl⟩ := execCfgs_next.1 h
    exact ((inv.loadCfg (cfg := strictCfg _) inv.isScalar_defaultRepl).succeed_empty _).respond r

/-- A transaction keeps the invariant. -/
theorem perform {x : Transaction} {t : State} (h : perform x s = .next t) : StateInv t := by
  obtain ⟨-, rfl⟩ | ⟨i, v, u, -, hw, rfl⟩ | ⟨i, v, -, -, rfl⟩ | ⟨w, p, -, hc⟩ := perform_next h
  · exact inv.resetBlock.respond _
  · exact (inv.writeReg hw).respond _
  · exact inv.respond _
  · obtain ⟨i, u, -, he, rfl⟩ | ⟨g, -, -, rfl⟩ := performCommand_next hc
    · exact inv.exec he _
    · exact inv.illegalVerdict.respond _

end StateInv

/-! ### The statements -/

/-- Settles O52: the tables of this hardware meet R107, and every register is at a literal or at
`DEFAULT_REPL`. -/
theorem invariantAtReset : Obligations.InvariantAtReset :=
  stateInv_resetOf ⟨_, rfl⟩ (by decide) rfl

/-- Settles O53: a step performs a transaction, or is idle. -/
theorem everyStepKeepsTheInvariant : Obligations.EveryStepKeepsTheInvariant := by
  intro s t inv h
  obtain ⟨-, ⟨-, rfl⟩ | ⟨x, rest, -, hx⟩⟩ := step_next h
  · exact inv
  · exact (inv.withPending rest).perform hx

end Sys2Proof.Machine
end

section
/-! SUPPORT. The measurement commands (spec/43_measurement.md R200 to R203), with the length of an encoding as
the sum of its characters' sizes, and the statements about them. -/

namespace Sys2Proof.Machine

/-! ### Sizes (R200) -/

theorem Tables.length_codeBytes (T : Tables) (c : Char21) :
    (T.codeBytes c).length = T.codeSize c := by
  unfold Tables.codeBytes Tables.codeSize
  cases T.invAt c with
  | none => rfl
  | some k => cases k <;> rfl

theorem Tables.codeSize_of_mapped {T : Tables} {c : Char21} (h : T.mapped c) :
    1 ≤ T.codeSize c ∧ T.codeSize c ≤ 2 := by
  unfold Tables.codeSize
  cases hk : T.invAt c with
  | none => exact absurd hk h
  | some k => cases k <;> simp

theorem Tables.length_flatMap_codeBytes (T : Tables) (text : List Char21) :
    (text.flatMap T.codeBytes).length = (text.map T.codeSize).sum := by
  simp only [List.length_flatMap, T.length_codeBytes]

theorem sum_codeSize_bounds {T : Tables} {text : List Char21} (h : ∀ c ∈ text, T.mapped c) :
    text.length ≤ (text.map T.codeSize).sum ∧ (text.map T.codeSize).sum ≤ 2 * text.length := by
  induction text with
  | nil => exact ⟨Nat.le_refl _, Nat.le_refl _⟩
  | cons c rest ih =>
    have hc := Tables.codeSize_of_mapped (h c List.mem_cons_self)
    have hrest := ih fun x hx => h x (List.mem_cons_of_mem c hx)
    rw [List.map_cons, List.sum_cons, List.length_cons]
    omega

/-! ### Compatibility (R201) -/

theorem isCompatible_of_mapped {T : Tables} {text : List Char21} (h : ∀ c ∈ text, T.mapped c) :
    isCompatible T text = true := by
  rw [isCompatible, encodedLen_of_mapped T h]

theorem isCompatible_of_unmapped {T : Tables} {text : List Char21}
    (h : ∃ c ∈ text, ¬ T.mapped c) : isCompatible T text = false := by
  obtain ⟨c, hc, hn⟩ := h
  obtain hall | ⟨before, x, after, rfl, hbefore, hx⟩ := mapped_or_first_unmapped T text
  · exact absurd (hall c hc) hn
  · rw [isCompatible, encodedLen_of_first_unmapped T hbefore hx]

/-! ### The statements -/

/-- Settles O35: the length is the sum of the sizes, which `RESULT` holds in 32 bits. -/
theorem elenCompletes : Obligations.ElenCompletes := by
  intro s text h ht hm
  refine execElen_next.2 ⟨text, ht, ?_⟩
  rw [encodedLen_of_mapped _ hm, State.answerCount, h.lenWord, State.succeed_eq_okResponse,
    State.okResponse]

/-- Settles O36: the characters before `c` have sizes, so the count comes to `c` and ends there. -/
theorem elenReportsFirstUnmapped : Obligations.ElenReportsFirstUnmapped := by
  intro s before after c ht hbefore hc
  refine execElen_next.2 ⟨_, ht, ?_⟩
  rw [encodedLen_of_first_unmapped _ hbefore hc, State.answerCount, State.report_unsupportedCharacter,
    State.errorResponse]

/-- Settles O37: the verdict is whether every character is mapped, and either is a success. -/
theorem compatCompletes : Obligations.CompatCompletes := by
  intro s text ht
  refine ⟨fun h => execCompat_next.2 ⟨text, ht, ?_⟩, fun h => execCompat_next.2 ⟨text, ht, ?_⟩⟩
  · rw [isCompatible_of_mapped h, if_pos rfl, State.succeed_eq_okResponse, State.okResponse]
  · rw [isCompatible_of_unmapped h, if_neg Bool.false_ne_true, State.succeed_eq_okResponse,
      State.okResponse]

/-- Settles O38: a text is all mapped, and then both give its codes, or it has a first unmapped character,
at which both end. -/
theorem encodedLenIsLengthOfEncode : Obligations.EncodedLenIsLengthOfEncode := by
  intro T cfg text hmax
  obtain hm | ⟨before, c, after, rfl, hbefore, hc⟩ := mapped_or_first_unmapped T text
  · rw [encodedLen_of_mapped T hm]
    refine ⟨?_, nofun⟩
    rintro n ⟨⟩
    refine ⟨_, ?_, T.length_flatMap_codeBytes text, sum_codeSize_bounds hm⟩
    rw [encodeText_of_fits T (CodecCfg.tooLong_eq_false hmax), encodeFrom_of_mapped cfg hm]
  · rw [encodedLen_of_first_unmapped T hbefore hc]
    refine ⟨nofun, ?_⟩
    rintro e ⟨⟩
    have hfits := CodecCfg.tooLong_eq_false (cfg := { cfg with strict := true }) hmax
    rw [encodeText_of_fits T hfits]
    exact encodeFrom_of_first_err T (fun x hx => encodeChar_of_mapped T (hbefore x hx))
      (encodeChar_of_unmapped_strict T rfl hc)

end Sys2Proof.Machine
end

section
/-! SUPPORT. The table lookups (spec/40_tables.md R109 to R111) and the presets (spec/44_config_host.md R224,
R225): the descriptor words written out, the configuration a preset leaves, and the statements about
them. -/

namespace Sys2Proof.Machine

/-! ### The descriptors (R109, R110) -/

/-- A word put together from two fields is the disjunction of the fields in their places. -/
theorem append_eq_or_setWidth {n m : Nat} (hi : BitVec n) (lo : BitVec m) :
    hi ++ lo = (hi ++ 0#m) ||| lo.setWidth (n + m) := by
  ext k hk
  simp only [BitVec.getElem_or, BitVec.getElem_append, BitVec.getElem_setWidth]
  by_cases hlt : k < m
  · simp [hlt, BitVec.getLsbD_eq_getElem]
  · simp [hlt, BitVec.getLsbD_of_ge lo k (Nat.le_of_not_lt hlt)]

theorem codeDescriptor_single (b : Byte) :
    codeDescriptor (some (.single b)) = 0x100#32 ||| b.setWidth 32 :=
  append_eq_or_setWidth (0#22 ++ 0#1 ++ 1#1) b

theorem codeDescriptor_escape (x : Byte) :
    codeDescriptor (some (.escape x)) = 0x300#32 ||| x.setWidth 32 :=
  append_eq_or_setWidth (0#22 ++ 1#1 ++ 1#1) x

theorem charDescriptor_some (c : Char21) :
    charDescriptor (some c) = 0x200000#32 ||| c.setWidth 32 :=
  append_eq_or_setWidth (0#10 ++ 1#1) c

/-- On this hardware `LKB` reads the table for a byte below 0x80 and reports the rest absent (R110). -/
theorem exec_lkb {s : State} (h : s.OfHardware) (hp : s.port.input = .empty) (b : Byte) :
    exec (.lkb b) s = .next
      (s.okResponse .empty (charDescriptor (if b.toNat < 128 then s.tables.baseAt b else none))) :=
  execLkb_next.2 ⟨hp, by rw [h.codec, hw_baseSize, State.succeed_eq_okResponse]⟩

theorem exec_lke {s : State} (hp : s.port.input = .empty) (x : Byte) :
    exec (.lke x) s = .next (s.okResponse .empty (charDescriptor (s.tables.extAt x))) :=
  execLke_next.2 ⟨hp, (s.succeed_eq_okResponse _ _).symm⟩

/-! ### The presets (R224, R225) -/

/-- What a preset without limit and validation leaves in the three registers. -/
theorem State.OfHardware.loadCfg_preset {s : State} (h : s.OfHardware) (strict : Bool) :
    s.loadCfg { strict := strict, repl := 0xFFFD#21, max := 0, validate := false } =
      { s with cfg := (BitVec.ofBool strict).setWidth 32, repl := 0xFFFD#32, maxlen := 0#32 } := by
  have hcfg : 0#30 ++ BitVec.ofBool false ++ BitVec.ofBool strict =
      (BitVec.ofBool strict).setWidth 32 := by
    cases strict <;> decide
  have hrepl : (0xFFFD#21).setWidth 32 = 0xFFFD#32 := by decide
  rw [State.loadCfg, h.lenWord, hcfg, hrepl]

/-- A preset's configuration is read back without limit and validation, whatever the parameters are. -/
theorem minimal_registerCfg_loadCfg (s : State) {cfg : CodecCfg} (h : cfg.minimal)
    (out : Payload) (result : Word) :
    ((s.loadCfg cfg).succeed out result).registerCfg.minimal := by
  obtain ⟨hmax, hvalidate⟩ := h
  constructor
  · simp [State.registerCfg, State.maxLength, BlockParams.lenWord, hmax]
  · have hbit : (0#30 ++ BitVec.ofBool false ++ BitVec.ofBool cfg.strict).getLsbD 1 = false := by
      cases cfg.strict <;> decide
    rw [State.registerCfg, State.validate, State.succeed_cfg, State.loadCfg_cfg, hvalidate, hbit]

/-- The default registers hold the default configuration. -/
theorem registerCfg_of_default {s : State} (h : s.OfHardware) (hcfg : s.cfg = 0#32)
    (hrepl : s.repl = 0xFFFD#32) (hmaxlen : s.maxlen = 0#32) :
    s.registerCfg = defaultCfg s.params.codec := by
  rw [State.registerCfg, State.strict, State.replChar, h.maxLength, State.validate, hcfg, hrepl,
    hmaxlen, h.codec]
  decide

/-! ### The statements -/

/-- Settles O39: the descriptor's fields, as a disjunction of constants and the byte. -/
theorem lkcCompletes : Obligations.LkcCompletes := by
  intro s c hp
  refine execLkc_next.2 ⟨hp, ?_⟩
  rw [State.succeed_eq_okResponse, State.okResponse]
  cases s.tables.invAt c with
  | none => rfl
  | some k =>
    cases k with
    | single b => rw [codeDescriptor_single]
    | escape x => rw [codeDescriptor_escape]

/-- Settles O40: the byte is below 0x80 and its slot decides, or it is not and reports absent. -/
theorem lkbCompletes : Obligations.LkbCompletes := by
  intro s b h hp
  rw [exec_lkb h hp]
  constructor
  · intro c hle hc
    rw [if_pos (Nat.lt_succ_of_le hle), hc, charDescriptor_some, State.okResponse]
  · intro hb
    have habsent : (if b.toNat < 128 then s.tables.baseAt b else none) = none :=
      ite_eq_right_iff.2 fun hlt => hb.resolve_left hlt.not_ge
    rw [habsent, charDescriptor, State.okResponse]

/-- Settles O41: the suffix is a key or it is not. -/
theorem lkeCompletes : Obligations.LkeCompletes := by
  intro s x hp
  rw [exec_lke hp]
  constructor
  · intro c hc
    rw [hc, charDescriptor_some, State.okResponse]
  · intro hn
    rw [hn, charDescriptor, State.okResponse]

/-- Settles O45: the default configuration is the preset that is not strict. -/
theorem cfgdCompletes : Obligations.CfgdCompletes := by
  intro s h hp
  refine execCfgd_next.2 ⟨hp, ?_⟩
  rw [h.codec]
  exact (congrArg (fun u : State => u.succeed .empty 0#32) (h.loadCfg_preset false)).symm

/-- Settles O46: the `strict()` configuration is the preset that is strict. -/
theorem cfgsCompletes : Obligations.CfgsCompletes := by
  intro s h hp
  refine execCfgs_next.2 ⟨hp, ?_⟩
  rw [h.codec]
  exact (congrArg (fun u : State => u.succeed .empty 0#32) (h.loadCfg_preset true)).symm

/-- Settles O47: the registers hold the configuration that `ENC` and `DEC` take. -/
theorem defaultRegistersMakeConfiguredCommandsPlain :
    Obligations.DefaultRegistersMakeConfiguredCommandsPlain := by
  intro s h hcfg hrepl hmaxlen
  have hdefault := registerCfg_of_default h hcfg hrepl hmaxlen
  constructor
  · rw [exec, exec, execEncC, execEnc, hdefault]
  · rw [exec, exec, execDecC, execDec, hdefault]

/-- Settles O48: both presets are minimal configurations. -/
theorem presetsAreMinimal : Obligations.PresetsAreMinimal := by
  rintro s t (h | h)
  · obtain ⟨-, rfl⟩ := execCfgd_next.1 h
    exact minimal_registerCfg_loadCfg s ⟨rfl, rfl⟩ _ _
  · obtain ⟨-, rfl⟩ := execCfgs_next.1 h
    exact minimal_registerCfg_loadCfg s ⟨rfl, rfl⟩ _ _

end Sys2Proof.Machine
end

section
/-! SUPPORT. What a transaction is refused for (spec/60_exceptions.md R251): which payloads, registers and
values the block admits, and the statements RefusesExactlyInadmissible and CommandRefusalGrounds. -/

namespace Sys2Proof.Machine

/-! ### The payload of a command (R81) -/

section

variable {s : State} {r : Refusal} {i : Instr}

/-- A command of each payload type is refused as its operand is. -/
theorem exec_of_textOperand_error (hk : payloadKind i = .text) (h : s.textOperand = .error r) :
    exec i s = .refused r := by
  cases i with
  | enc => rw [exec, execEnc, h]
  | encC => rw [exec, execEncC, h]
  | elen => rw [exec, execElen, h]
  | compat => rw [exec, execCompat, h]
  | _ => cases hk

theorem exec_of_byteOperand_error (hk : payloadKind i = .bytes) (h : s.byteOperand = .error r) :
    exec i s = .refused r := by
  cases i with
  | dec => rw [exec, execDec, h]
  | decC => rw [exec, execDecC, h]
  | _ => cases hk

theorem exec_of_noOperand_error (hk : payloadKind i = .nothing) (h : s.noOperand = .error r) :
    exec i s = .refused r := by
  cases i with
  | lkc c => rw [exec, execLkc, h]
  | lkb b => rw [exec, execLkb, h]
  | lke x => rw [exec, execLke, h]
  | cfgd => rw [exec, execCfgd, h]
  | cfgs => rw [exec, execCfgs, h]
  | _ => cases hk

/-- F1 stands before all other grounds (assumption log 12). -/
theorem exec_of_tooLong (h : s.params.inCap < s.port.input.length) :
    exec i s = .refused .payloadTooLong := by
  have hover : s.overCapacity s.port.input = true := decide_eq_true h
  cases hk : payloadKind i with
  | text => exact exec_of_textOperand_error hk (by rw [State.textOperand, if_pos hover])
  | bytes => exact exec_of_byteOperand_error hk (by rw [State.byteOperand, if_pos hover])
  | nothing => exact exec_of_noOperand_error hk (by rw [State.noOperand, if_pos hover])

/-- F4 and F2: a string row refuses bytes, then characters that are no scalar value. -/
theorem textOperand_of_bytes (h : s.overCapacity s.port.input = false)
    (ht : s.port.input.asText = none) : s.textOperand = .error .payloadType := by
  rw [State.textOperand, h, if_neg Bool.false_ne_true, ht]

theorem textOperand_of_notScalar (h : s.overCapacity s.port.input = false) {text : List Char21}
    (ht : s.port.input.asText = some text) (hc : ∃ c ∈ text, isScalar c = false) :
    s.textOperand = .error .payloadNotScalar := by
  have hall : text.all isScalar = false := by simpa using hc
  rw [State.textOperand, h, if_neg Bool.false_ne_true, ht]
  exact if_neg (ne_true_of_eq_false hall)

/-- F4: a byte row refuses characters. -/
theorem byteOperand_of_text (h : s.overCapacity s.port.input = false)
    (hb : s.port.input.asBytes = none) : s.byteOperand = .error .payloadType := by
  rw [State.byteOperand, h, if_neg Bool.false_ne_true, hb]

/-- F3: a row whose payload is `[]` refuses any element. -/
theorem noOperand_of_nonempty (h : s.overCapacity s.port.input = false)
    (hp : s.port.input ≠ .empty) : s.noOperand = .error .payloadNotEmpty := by
  rw [State.noOperand, h, if_neg Bool.false_ne_true]
  cases hin : s.port.input with
  | empty => exact absurd hin hp
  | byteSeq b bs => rfl
  | charSeq c cs => rfl

/-! ### The payloads a command admits -/

theorem exists_textInput_iff : (∃ text, TextInput s text) ↔
    s.port.input.length ≤ s.params.inCap ∧ s.port.input.hasKind .text = true := by
  constructor
  · rintro ⟨text, hp, hlen, hscalar⟩
    rw [hp, Payload.length_ofText, Payload.hasKind, Payload.asText_ofText]
    exact ⟨hlen, List.all_eq_true.2 hscalar⟩
  · rintro ⟨hlen, hkind⟩
    rw [Payload.hasKind] at hkind
    cases ht : s.port.input.asText with
    | none => rw [ht] at hkind; cases hkind
    | some text =>
      rw [ht] at hkind
      have hp := Payload.asText_eq_some.1 ht
      rw [hp, Payload.length_ofText] at hlen
      exact ⟨text, hp, hlen, List.all_eq_true.1 hkind⟩

theorem exists_byteInput_iff : (∃ bytes, ByteInput s bytes) ↔
    s.port.input.length ≤ s.params.inCap ∧ s.port.input.hasKind .bytes = true := by
  rw [Payload.hasKind, Option.isSome_iff_exists]
  constructor
  · rintro ⟨bytes, hp, hlen⟩
    rw [hp, Payload.length_ofBytes]
    exact ⟨hlen, bytes, Payload.asBytes_ofBytes bytes⟩
  · rintro ⟨hlen, bytes, hb⟩
    have hp := Payload.asBytes_eq_some.1 hb
    rw [hp, Payload.length_ofBytes] at hlen
    exact ⟨bytes, hp, hlen⟩

theorem input_eq_empty_iff : s.port.input = .empty ↔
    s.port.input.length ≤ s.params.inCap ∧ s.port.input.hasKind .nothing = true := by
  rw [Payload.hasKind, decide_eq_true_iff]
  exact ⟨fun h => ⟨h ▸ Nat.zero_le _, h⟩, And.right⟩

/-- An answer is defined wherever an operand is. -/
theorem exists_answer_iff {α : Type} {admits : α → Prop} {answer : α → State} :
    (∃ t, ∃ a, admits a ∧ t = answer a) ↔ ∃ a, admits a := by
  rw [exists_comm]
  simp

theorem exists_answer_iff_of_noOperand {admits : Prop} {answer : State} :
    (∃ t, admits ∧ t = answer) ↔ admits := by
  simp

/-- A command answers a next state exactly where its payload has its row's type and fits. -/
theorem exists_exec_next_iff : (∃ t, exec i s = .next t) ↔
    s.port.input.length ≤ s.params.inCap ∧ s.port.input.hasKind (payloadKind i) = true := by
  have htext := exists_textInput_iff (s := s)
  have hbytes := exists_byteInput_iff (s := s)
  have hnone := input_eq_empty_iff (s := s)
  cases i with
  | enc => exact (exists_congr fun _ => execEnc_next).trans (exists_answer_iff.trans htext)
  | encC => exact (exists_congr fun _ => execEncC_next).trans (exists_answer_iff.trans htext)
  | elen => exact (exists_congr fun _ => execElen_next).trans (exists_answer_iff.trans htext)
  | compat => exact (exists_congr fun _ => execCompat_next).trans (exists_answer_iff.trans htext)
  | dec => exact (exists_congr fun _ => execDec_next).trans (exists_answer_iff.trans hbytes)
  | decC => exact (exists_congr fun _ => execDecC_next).trans (exists_answer_iff.trans hbytes)
  | lkc c => exact (exists_congr fun _ => execLkc_next).trans (exists_answer_iff_of_noOperand.trans hnone)
  | lkb b => exact (exists_congr fun _ => execLkb_next).trans (exists_answer_iff_of_noOperand.trans hnone)
  | lke x => exact (exists_congr fun _ => execLke_next).trans (exists_answer_iff_of_noOperand.trans hnone)
  | cfgd => exact (exists_congr fun _ => execCfgd_next).trans (exists_answer_iff_of_noOperand.trans hnone)
  | cfgs => exact (exists_congr fun _ => execCfgs_next).trans (exists_answer_iff_of_noOperand.trans hnone)

end

/-! ### The transactions the block admits (R220) -/

theorem exists_readReg_ok_iff {s : State} {i : Nat} : (∃ v, s.readReg i = .ok v) ↔ i < 8 := by
  constructor
  · rintro ⟨v, h⟩
    by_contra hge
    rw [readReg_of_ge s (Nat.le_of_not_lt hge)] at h
    cases h
  · intro hi
    interval_cases i <;> exact ⟨_, rfl⟩

theorem exists_writeReg_ok_iff {s : State} {i : Nat} {v : Word} :
    (∃ u, s.writeReg i v = .ok u) ↔
      i < 8 ∧ (i ≠ 1 ∨ isScalar (v.extractLsb' 0 21) = true) := by
  constructor
  · rintro ⟨u, h⟩
    obtain ⟨rfl, -⟩ | ⟨rfl, hv, -⟩ | ⟨rfl, -⟩ | ⟨hlo, hhi, -⟩ := writeReg_ok h
    · exact ⟨by decide, .inl (by decide)⟩
    · exact ⟨by decide, .inr hv⟩
    · exact ⟨by decide, .inl (by decide)⟩
    · omega
  · rintro ⟨hi, hv⟩
    match i, hi with
    | 0, _ | 2, _ | 3, _ | 4, _ | 5, _ | 6, _ | 7, _ => exact ⟨_, rfl⟩
    | 1, _ => exact ⟨_, writeReg_repl_of_isScalar s (hv.resolve_left (absurd rfl))⟩

theorem exists_respondCommand_next_iff {o : Host.Outcome State Fault Refusal} :
    (∃ t, respondCommand o = .next t) ↔ ∃ u, o = .next u := by
  cases o <;> simp [respondCommand]

theorem exists_performCommand_next_iff {s : State} {w : Word} {p : Payload} :
    (∃ t, performCommand w p s = .next t) ↔
      (Transaction.command w p).admissible s.params.inCap = true := by
  rw [Transaction.admissible, Bool.and_eq_true, decide_eq_true_iff, performCommand]
  cases decode w with
  | legal i => exact exists_respondCommand_next_iff.trans exists_exec_next_iff
  | illegal g =>
    cases hover : s.overCapacity p with
    | true =>
      have hlt : s.params.inCap < p.length := of_decide_eq_true hover
      simp [hlt]
    | false => simp [respondCommand, State.overCapacity_eq_false.1 hover]

/-- A transaction answers a next state exactly where it keeps the host's duties. -/
theorem exists_perform_next_iff {x : Transaction} {s : State} :
    (∃ t, perform x s = .next t) ↔ x.admissible s.params.inCap = true := by
  cases x with
  | reset => exact ⟨fun _ => rfl, fun _ => ⟨_, rfl⟩⟩
  | writeReg i v =>
    have hadm : (Transaction.writeReg i v).admissible s.params.inCap = true ↔
        ∃ u, s.writeReg i v = .ok u := by
      simp [Transaction.admissible, exists_writeReg_ok_iff]
    rw [hadm, perform]
    cases s.writeReg i v <;> simp
  | readReg i =>
    have hadm : (Transaction.readReg i).admissible s.params.inCap = true ↔
        ∃ v, s.readReg i = .ok v := by
      simp [Transaction.admissible, exists_readReg_ok_iff]
    rw [hadm, perform]
    cases s.readReg i <;> simp
  | command w p => exact exists_performCommand_next_iff

/-- There is no fault: a transaction that answers no next state is refused (R282). -/
theorem exists_refused_iff {o : Host.Outcome State Fault Refusal} :
    (∃ r, o = .refused r) ↔ ¬ ∃ t, o = .next t := by
  cases o with
  | next t => simp
  | fault f => cases f
  | refused r => simp

/-! ### The statements -/

/-- Settles O49: a step of an unmarked state performs the transaction, which answers a next state where it
is admissible. -/
theorem refusesExactlyInadmissible : Obligations.RefusesExactlyInadmissible := by
  intro s x rest h hp
  have hnext : (∃ t, perform x (s.withPending rest) = .next t) ↔
      x.admissible s.params.inCap = true := exists_perform_next_iff
  rw [step_of_pending h hp]
  exact ⟨by rw [exists_refused_iff, hnext, Bool.not_eq_true], hnext⟩

/-- Settles O50: the capacity is checked first, then what each row asks of its payload. -/
theorem commandRefusalGrounds : Obligations.CommandRefusalGrounds := by
  intro i s
  refine ⟨exec_of_tooLong, fun hlen => ?_⟩
  have hfits : s.overCapacity s.port.input = false := State.overCapacity_eq_false.2 hlen
  exact ⟨fun hk ht => exec_of_textOperand_error hk (textOperand_of_bytes hfits ht),
    fun hk t ht hc => exec_of_textOperand_error hk (textOperand_of_notScalar hfits ht hc),
    fun hk hb => exec_of_byteOperand_error hk (byteOperand_of_text hfits hb),
    fun hk hp => exec_of_noOperand_error hk (noOperand_of_nonempty hfits hp)⟩

end Sys2Proof.Machine
end

section
/-! SUPPORT. A step that performs a `COMMAND` (spec/44_config_host.md R223) and one that performs `RESET` (R270),
what a command may change and what it reads, and the statements about single steps and commands. -/

namespace Sys2Proof.Machine

/-! ### The step of a `COMMAND` -/

/-- A legal command runs with its payload and returns its response (R223). -/
theorem performCommand_of_legal {s : State} {w : Word} {i : Instr} (hd : decode w = .legal i)
    (p : Payload) : performCommand w p s = respondCommand (exec i (s.withInput p)) := by
  rw [performCommand, hd]

theorem step_command {s : State} {w : Word} {p : Payload} {rest : List Transaction} {i : Instr}
    (h : s.port.refusal = none) (hp : s.port.pending = .command w p :: rest)
    (hd : decode w = .legal i) :
    step s = respondCommand (exec i ((s.withPending rest).withInput p)) := by
  rw [step_of_pending h hp, perform, performCommand_of_legal hd]

theorem decode_of_decodeTableWord {n w : Nat} {i : Instr} (h : decodeTableWord n w = some i) :
    decode (tableWord n w) = .legal i := by
  unfold decodeTableWord at h
  split at h
  next j hj => cases h; exact hj
  next => cases h

/-- A command that answers a next state sets `DONE` and leaves `FSM` at 0. -/
theorem exec_done {i : Instr} {s t : State} (h : exec i s = .next t) :
    t.done = true ∧ t.fsm = 0#32 := by
  have hok : statusOk.getLsbD 0 = true := by decide
  obtain ⟨o, w, rfl⟩ | ⟨e, rfl⟩ | ⟨-, rfl⟩ | ⟨-, rfl⟩ := exec_next_cases h
  · exact ⟨hok, rfl⟩
  · obtain ⟨-, hdone, -⟩ := statusErr_fits e
    exact ⟨hdone, rfl⟩
  · exact ⟨hok, rfl⟩
  · exact ⟨hok, rfl⟩

/-! ### What a command may change -/

/-- Only the presets write the configuration registers. -/
theorem exec_registers {i : Instr} {s t : State} (h : exec i s = .next t) :
    (t.cfg = s.cfg ∧ t.repl = s.repl ∧ t.maxlen = s.maxlen) ∨ i = .cfgd ∨ i = .cfgs := by
  obtain ⟨o, w, rfl⟩ | ⟨e, rfl⟩ | ⟨hi, -⟩ | ⟨hi, -⟩ := exec_next_cases h
  · exact .inl ⟨rfl, rfl, rfl⟩
  · exact .inl ⟨rfl, rfl, rfl⟩
  · exact .inr (.inl hi)
  · exact .inr (.inr hi)

/-- A transaction writes no table, but for `RESET`, which puts the parameter tables. -/
theorem perform_tables {x : Transaction} {s t : State} (h : perform x s = .next t) :
    t.tables = s.tables ∨ x = .reset ∧ t.tables = Tables.ofParameters s.params := by
  obtain ⟨hx, rfl⟩ | ⟨i, v, u, -, hw, rfl⟩ | ⟨i, v, -, -, rfl⟩ | ⟨w, p, -, hc⟩ := perform_next h
  · exact .inr ⟨hx, rfl⟩
  · obtain ⟨-, htables, -⟩ := writeReg_port hw
    exact .inl htables
  · exact .inl rfl
  · obtain ⟨i, u, -, he, rfl⟩ | ⟨g, -, -, rfl⟩ := performCommand_next hc
    · obtain ⟨-, htables, -⟩ := exec_port he
      exact .inl htables
    · exact .inl rfl

/-- The writers of the configuration registers: `RESET`, a write to them, and the presets. -/
theorem perform_registers {x : Transaction} {s t : State} (h : perform x s = .next t) :
    (t.cfg = s.cfg ∧ t.repl = s.repl ∧ t.maxlen = s.maxlen) ∨ x = .reset ∨
      (∃ i v, i < 3 ∧ x = .writeReg i v) ∨
      ∃ w p, x = .command w p ∧ (decode w = .legal .cfgd ∨ decode w = .legal .cfgs) := by
  obtain ⟨hx, -⟩ | ⟨i, v, u, hx, hw, rfl⟩ | ⟨i, v, -, -, rfl⟩ | ⟨w, p, hx, hc⟩ := perform_next h
  · exact .inr (.inl hx)
  · by_cases hi : i < 3
    · exact .inr (.inr (.inl ⟨i, v, hi, hx⟩))
    · obtain ⟨rfl, -⟩ | ⟨rfl, -⟩ | ⟨rfl, -⟩ | ⟨-, -, rfl⟩ := writeReg_ok hw
      · exact absurd (by decide) hi
      · exact absurd (by decide) hi
      · exact absurd (by decide) hi
      · exact .inl ⟨rfl, rfl, rfl⟩
  · exact .inl ⟨rfl, rfl, rfl⟩
  · obtain ⟨i, u, hd, he, rfl⟩ | ⟨g, -, -, rfl⟩ := performCommand_next hc
    · obtain hsame | rfl | rfl := exec_registers he
      · exact .inl hsame
      · exact .inr (.inr (.inr ⟨w, p, hx, .inl hd⟩))
      · exact .inr (.inr (.inr ⟨w, p, hx, .inr hd⟩))
    · exact .inl ⟨rfl, rfl, rfl⟩

/-! ### What a command reads -/

/-- The state with other contents of the configuration registers. -/
def State.withRegisters (s : State) (cfg repl maxlen : Word) : State :=
  { s with cfg := cfg, repl := repl, maxlen := maxlen }

section

variable (s : State) (cfg repl maxlen : Word)

/-- An answer carries the configuration registers along and does not read them. -/
theorem answerBytes_withRegisters (r : Result (List Byte)) :
    (s.withRegisters cfg repl maxlen).answerBytes r =
      (s.answerBytes r).withRegisters cfg repl maxlen := by
  cases r <;> rfl

theorem answerText_withRegisters (r : Result (List Char21)) :
    (s.withRegisters cfg repl maxlen).answerText r =
      (s.answerText r).withRegisters cfg repl maxlen := by
  cases r <;> rfl

theorem answerCount_withRegisters (r : Result Nat) :
    (s.withRegisters cfg repl maxlen).answerCount r =
      (s.answerCount r).withRegisters cfg repl maxlen := by
  cases r <;> rfl

end

/-- The response components of two states are the same. -/
def SameResponse (t t' : State) : Prop :=
  t'.status = t.status ∧ t'.errinfo = t.errinfo ∧ t'.result = t.result ∧ t'.out = t.out ∧
    t'.fsm = t.fsm

theorem sameResponse_withRegisters (t : State) (cfg repl maxlen : Word) :
    SameResponse t (t.withRegisters cfg repl maxlen) := ⟨rfl, rfl, rfl, rfl, rfl⟩

/-- A command without `UC` answers the same whatever the configuration registers hold (R276). -/
theorem exec_withRegisters {i : Instr} {s t : State} (hencC : i ≠ .encC) (hdecC : i ≠ .decC)
    (h : exec i s = .next t) (cfg repl maxlen : Word) :
    ∃ t', exec i (s.withRegisters cfg repl maxlen) = .next t' ∧ SameResponse t t' := by
  have carried : exec i (s.withRegisters cfg repl maxlen) =
      .next (t.withRegisters cfg repl maxlen) →
      ∃ t', exec i (s.withRegisters cfg repl maxlen) = .next t' ∧ SameResponse t t' :=
    fun he => ⟨_, he, sameResponse_withRegisters t cfg repl maxlen⟩
  cases i with
  | enc =>
    obtain ⟨text, ht, rfl⟩ := execEnc_next.1 h
    exact carried (execEnc_next.2 ⟨text, ht, (answerBytes_withRegisters s cfg repl maxlen _).symm⟩)
  | encC => exact absurd rfl hencC
  | dec =>
    obtain ⟨bytes, hb, rfl⟩ := execDec_next.1 h
    exact carried (execDec_next.2 ⟨bytes, hb, (answerText_withRegisters s cfg repl maxlen _).symm⟩)
  | decC => exact absurd rfl hdecC
  | elen =>
    obtain ⟨text, ht, rfl⟩ := execElen_next.1 h
    exact carried (execElen_next.2 ⟨text, ht, (answerCount_withRegisters s cfg repl maxlen _).symm⟩)
  | compat =>
    obtain ⟨text, ht, rfl⟩ := execCompat_next.1 h
    exact carried (execCompat_next.2 ⟨text, ht, rfl⟩)
  | lkc c =>
    obtain ⟨hp, rfl⟩ := execLkc_next.1 h
    exact carried (execLkc_next.2 ⟨hp, rfl⟩)
  | lkb b =>
    obtain ⟨hp, rfl⟩ := execLkb_next.1 h
    exact carried (execLkb_next.2 ⟨hp, rfl⟩)
  | lke x =>
    obtain ⟨hp, rfl⟩ := execLke_next.1 h
    exact carried (execLke_next.2 ⟨hp, rfl⟩)
  | cfgd =>
    obtain ⟨hp, rfl⟩ := execCfgd_next.1 h
    exact ⟨_, execCfgd_next.2 ⟨hp, rfl⟩, rfl, rfl, rfl, rfl, rfl⟩
  | cfgs =>
    obtain ⟨hp, rfl⟩ := execCfgs_next.1 h
    exact ⟨_, execCfgs_next.2 ⟨hp, rfl⟩, rfl, rfl, rfl, rfl, rfl⟩

/-! ### A command issued again (R56) -/

/-- After a command has responded, running it again with the same payload leaves the same state: it reads
nothing that it wrote, and a preset loads the values that stand there. -/
theorem exec_again {i : Instr} {s u : State} {p : Payload} (h : exec i (s.withInput p) = .next u) :
    respondCommand (exec i ((u.respond u.commandResponse).withInput p)) =
      .next (u.respond u.commandResponse) := by
  obtain ⟨-, htables, hparams⟩ := exec_port h
  obtain ⟨hcfg, hrepl, hmaxlen⟩ | rfl | rfl := exec_registers h
  · have hsame : SameInputs (s.withInput p) ((u.respond u.commandResponse).withInput p) :=
      ⟨hcfg, hrepl, hmaxlen, htables, hparams, rfl⟩
    rw [hsame.exec, h]
    rfl
  · obtain ⟨hp, hu⟩ := execCfgd_next.1 h
    have hagain := (execCfgd_next (s := (u.respond u.commandResponse).withInput p)).2 ⟨hp, rfl⟩
    rw [exec, hagain, hu]
    rfl
  · obtain ⟨hp, hu⟩ := execCfgs_next.1 h
    have hagain := (execCfgs_next (s := (u.respond u.commandResponse).withInput p)).2 ⟨hp, rfl⟩
    rw [exec, hagain, hu]
    rfl

/-! ### The statements -/

/-- Settles O2: the block at its reset values, the port as it was but for the transaction and its
payload. -/
theorem resetTransactionRestoresEveryComponent :
    Obligations.ResetTransactionRestoresEveryComponent := by
  intro s rest h hp
  rw [step_of_pending h hp, perform, ← h]
  rfl

/-- Settles O5: the outcome of `exec` is carried to the step, with the response in the port. -/
theorem stepRunsTheDecodedCommand : Obligations.StepRunsTheDecodedCommand := by
  intro s w p rest i h hp hd
  rw [step_command h hp hd]
  exact ⟨fun t ht => congrArg respondCommand ht, fun r hr => congrArg respondCommand hr⟩

/-- Settles O6: the placed word is the head of the list, and taking it leaves the list that stood there. -/
theorem fetchWordRunsNext : Obligations.FetchWordRunsNext := by
  intro s w i h hw t ht
  rw [step_command (s := s.withFetchWord 32 w) h rfl (decode_of_decodeTableWord hw)]
  exact congrArg respondCommand ht

/-- Settles O7: an idle step performs nothing. -/
theorem idleBlockStays : Obligations.IdleBlockStays := fun _ => step_of_idle

/-- Settles O9: a legal command and the illegal verdict both leave a `STATUS` with `DONE`. -/
theorem commandRespondsWithItsResult : Obligations.CommandRespondsWithItsResult := by
  intro s t w p rest hp h
  obtain ⟨hr, ⟨hnil, -⟩ | ⟨x, rest', hcons, hx⟩⟩ := step_next h
  · cases hnil.symm.trans hp
  · cases hcons.symm.trans hp
    obtain ⟨i, u, -, he, rfl⟩ | ⟨g, -, -, rfl⟩ := performCommand_next hx
    · obtain ⟨hdone, hfsm⟩ := exec_done he
      obtain ⟨hport, -, -⟩ := exec_port he
      refine ⟨hdone, hfsm, ?_⟩
      simp [State.respond, hport, hr, State.commandResponse]
    · refine ⟨(by decide : statusIllegal.getLsbD 0 = true), rfl, ?_⟩
      simp [State.respond, hr, State.commandResponse]

/-- Settles O54: a step performs a transaction, or is idle. -/
theorem tablesAreNeverWritten : Obligations.TablesAreNeverWritten := by
  intro s t h
  obtain ⟨-, ⟨-, rfl⟩ | ⟨x, rest, hp, hx⟩⟩ := step_next h
  · exact ⟨rfl, .inl rfl⟩
  · obtain ⟨-, -, hparams⟩ := perform_port hx
    refine ⟨hparams, (perform_tables hx).imp_right ?_⟩
    rintro ⟨rfl, htables⟩
    exact ⟨⟨rest, hp⟩, htables⟩

/-- Settles O55: each writer is a transaction, and it is the pending one. -/
theorem configurationChangesOnlyByItsWriters : Obligations.ConfigurationChangesOnlyByItsWriters := by
  intro s t h
  obtain ⟨-, ⟨-, rfl⟩ | ⟨x, rest, hp, hx⟩⟩ := step_next h
  · exact .inl ⟨rfl, rfl, rfl⟩
  · obtain hsame | rfl | ⟨i, v, hi, rfl⟩ | ⟨w, p, rfl, hd⟩ := perform_registers hx
    · exact .inl hsame
    · exact .inr (.inl ⟨rest, hp⟩)
    · exact .inr (.inr (.inl ⟨i, v, rest, hi, hp⟩))
    · exact .inr (.inr (.inr ⟨w, p, rest, hp, hd⟩))

/-- Settles O56: the two states agree on what a command reads, the port included. -/
theorem commandsReadNoOutputState : Obligations.CommandsReadNoOutputState := by
  intro i s status errinfo result fsm out
  have hsame : SameInputs s { s with status := status, errinfo := errinfo, result := result,
                                     fsm := fsm, out := out } := ⟨rfl, rfl, rfl, rfl, rfl, rfl⟩
  rw [hsame.exec]
  cases h : exec i s with
  | next t =>
    obtain ⟨hport, -, -⟩ := exec_port h
    rw [withPortOf, ← hport]
  | fault f => rfl
  | refused r => rfl

/-- Settles O57: every other command takes a configuration of its own, or none. -/
theorem onlyConfiguredCommandsReadTheRegisters :
    Obligations.OnlyConfiguredCommandsReadTheRegisters :=
  fun _ _ _ cfg repl maxlen hencC hdecC h => exec_withRegisters hencC hdecC h cfg repl maxlen

/-- Settles O58: a legal command reads nothing it wrote, and an illegal word reads nothing at all. -/
theorem commandIsIdempotent : Obligations.CommandIsIdempotent := by
  intro s t w p h
  obtain ⟨i, u, hd, he, rfl⟩ | ⟨g, hd, hlen, rfl⟩ := performCommand_next h
  · rw [perform, performCommand_of_legal hd]
    exact exec_again he
  · rw [perform]
    exact performCommand_of_illegal (s := s.illegalVerdict.respond _) hd hlen

end Sys2Proof.Machine
end

section
/-! SUPPORT. The lines of host assembly (spec/30_encoding.md R82, R84): the tokens of a line of words, the
hexadecimal digits read back, and the statement PrintedLegalWordsAssembleBack. -/

namespace Sys2Proof.Machine

/-! ### The tokens of a line of words (R82) -/

/-- Text without a space, a comma, a bracket, a quote or a semicolon. -/
def isWordText (text : List Char) : Bool := text.all fun c => !endsWord c

theorem isWordText_cons {c : Char} {text : List Char} :
    isWordText (c :: text) = true ↔ endsWord c = false ∧ isWordText text = true := by
  simp [isWordText]

theorem lexStep_word {c : Char} (h : endsWord c = false) (acc : List Char) :
    lexStep (.word acc) c = .go [] (.word (c :: acc)) := by
  rw [lexStep, h, if_neg Bool.false_ne_true]

theorem lexIdle_of_not_endsWord {c : Char} (h : endsWord c = false) :
    lexIdle c = .go [] (.word [c]) := by
  simp only [endsWord, Bool.or_eq_false_iff, decide_eq_false_iff_not] at h
  simp [lexIdle, h]

/-- A word runs to the end of the line. -/
theorem lexFrom_word {text : List Char} (h : isWordText text = true) (acc : List Char) :
    lexFrom (.word acc) text = some [.word (acc.reverse ++ text)] := by
  induction text generalizing acc with
  | nil => simp [lexFrom, lexEnd]
  | cons c rest ih =>
    obtain ⟨hc, hrest⟩ := isWordText_cons.1 h
    rw [lexFrom, lexStep_word hc]
    simp [ih hrest]

/-- A word ends at a space. -/
theorem lexFrom_word_space {text : List Char} (h : isWordText text = true) (acc line : List Char) :
    lexFrom (.word acc) (text ++ ' ' :: line) =
      (lexFrom .idle line).map (.word (acc.reverse ++ text) :: ·) := by
  induction text generalizing acc with
  | nil =>
    have hspace : lexStep (.word acc) ' ' = .go [.word acc.reverse] .idle := rfl
    rw [List.nil_append, lexFrom, hspace]
    simp
  | cons c rest ih =>
    obtain ⟨hc, hrest⟩ := isWordText_cons.1 h
    rw [List.cons_append, lexFrom, lexStep_word hc]
    simp [ih hrest, Function.comp_def]

theorem lexFrom_idle_cons {c : Char} (h : endsWord c = false) (line : List Char) :
    lexFrom .idle (c :: line) = lexFrom (.word [c]) line := by
  rw [lexFrom, lexStep, lexIdle_of_not_endsWord h]
  simp

theorem lexFrom_idle_word {text : List Char} (hne : text ≠ []) (h : isWordText text = true) :
    lexFrom .idle text = some [.word text] := by
  obtain ⟨c, rest, rfl⟩ := List.exists_cons_of_ne_nil hne
  obtain ⟨hc, hrest⟩ := isWordText_cons.1 h
  rw [lexFrom_idle_cons hc, lexFrom_word hrest]
  rfl

theorem lexFrom_idle_word_space {text : List Char} (hne : text ≠ []) (h : isWordText text = true)
    (line : List Char) :
    lexFrom .idle (text ++ ' ' :: line) = (lexFrom .idle line).map (.word text :: ·) := by
  obtain ⟨c, rest, rfl⟩ := List.exists_cons_of_ne_nil hne
  obtain ⟨hc, hrest⟩ := isWordText_cons.1 h
  rw [List.cons_append, lexFrom_idle_cons hc, lexFrom_word_space hrest]
  rfl

/-! ### Hexadecimal digits (R84) -/

theorem hexValue_hexDigit (d : BitVec 4) : hexValue (hexDigit d) = some d.toNat := by
  revert d
  decide

theorem endsWord_hexDigit (d : BitVec 4) : endsWord (hexDigit d) = false := by
  revert d
  decide

theorem isWordText_hexDigits (w : Word) (k : Nat) : isWordText (hexDigits w k) = true := by
  induction k with
  | zero => rfl
  | succ k ih => exact isWordText_cons.2 ⟨endsWord_hexDigit _, ih⟩

/-- The printed digits are read after `acc` as the low `k` digits of the word. -/
theorem readDigits_hexDigits (w : Word) (k acc : Nat) :
    readDigits 16 (hexDigits w k) acc = some (acc * 16 ^ k + w.toNat % 16 ^ k) := by
  induction k generalizing acc with
  | zero => simp [hexDigits, readDigits, Nat.mod_one]
  | succ k ih =>
    have hdigit : (w.extractLsb' (4 * k) 4).toNat = w.toNat / 16 ^ k % 16 := by
      rw [BitVec.extractLsb'_toNat, Nat.shiftRight_eq_div_pow, Nat.pow_mul]
    have hlt : (w.extractLsb' (4 * k) 4).toNat < 16 := BitVec.isLt _
    rw [hexDigits, readDigits, hexValue_hexDigit]
    simp only [hlt, if_true]
    rw [ih, hdigit, Nat.mod_pow_succ, Nat.pow_succ]
    congr 1
    ring

theorem readBase_hexDigits {w : Word} {k : Nat} (h : w.toNat < 16 ^ (k + 1)) :
    readBase 16 (hexDigits w (k + 1)) = some w.toNat := by
  show readDigits 16 (hexDigits w (k + 1)) 0 = _
  rw [readDigits_hexDigits, Nat.zero_mul, Nat.zero_add, Nat.mod_eq_of_lt h]

/-! ### The printed operands -/

theorem toNat_setWidth_32 {n : Nat} (hn : n ≤ 32) (x : BitVec n) : (x.setWidth 32).toNat = x.toNat :=
  BitVec.toNat_setWidth_of_le hn

/-- A character prints with as many digits as it needs, and is read back from them. -/
theorem readCharArg_printChar (c : Char21) : readCharArg (.word (printChar c)) = some c := by
  have hread {k : Nat} (h : c.toNat < 16 ^ (k + 1)) :
      readCharArg (.word ('U' :: '+' :: hexDigits (c.setWidth 32) (k + 1))) = some c := by
    have hc : (c.setWidth 32).toNat = c.toNat := toNat_setWidth_32 (by decide) c
    rw [readCharArg, readBase_hexDigits (hc ▸ h), hc]
    simp [c.isLt]
  unfold printChar
  split
  next h => exact hread (k := 3) h
  next =>
    split
    next h => exact hread (k := 4) h
    next => exact hread (k := 5) (c.isLt.trans (by decide))

theorem readByteArg_printByte (b : Byte) :
    readByteArg (.word (printByte b)) = some (b.setWidth 21) := by
  have hb : (b.setWidth 32).toNat = b.toNat := toNat_setWidth_32 (by decide) b
  have hnum : readNumber (printByte b) = some b.toNat := by
    show readBase 16 (hexDigits (b.setWidth 32) 2) = _
    rw [readBase_hexDigits (hb ▸ b.isLt), hb]
  rw [readByteArg, readBounded, hnum]
  simp [b.isLt]

theorem isWordText_printChar (c : Char21) : isWordText (printChar c) = true :=
  isWordText_cons.2 ⟨rfl, isWordText_cons.2 ⟨rfl, isWordText_hexDigits _ _⟩⟩

theorem isWordText_printByte (b : Byte) : isWordText (printByte b) = true :=
  isWordText_cons.2 ⟨rfl, isWordText_cons.2 ⟨rfl, isWordText_hexDigits _ _⟩⟩

/-! ### The line of a command -/

/-- `CMD` and a space before a line of a mnemonic and its operand. -/
theorem assembleLine_cmd {line name : List Char} {toks : List Tok}
    (h : lexFrom .idle line = some (.word name :: toks)) :
    assembleLine (['C', 'M', 'D', ' '] ++ line) = readCommand name toks := by
  have htoks : lexFrom .idle (['C', 'M', 'D', ' '] ++ line) =
      some (.word ['C', 'M', 'D'] :: .word name :: toks) := by
    have hcmd : isWordText ['C', 'M', 'D'] = true := rfl
    refine (lexFrom_idle_word_space (List.cons_ne_nil _ _) hcmd line).trans ?_
    rw [h, Option.map_some]
  rw [assembleLine, htoks]
  rfl

/-- Every mnemonic is a word. -/
theorem isWordText_of_lookup {name : List Char} {row : BitVec 4 × Bool × ArgKind}
    (h : mnemonics.lookup name = some row) : name ≠ [] ∧ isWordText name = true := by
  have hall : ∀ m ∈ mnemonics, m.1 ≠ [] ∧ isWordText m.1 = true := by decide
  obtain ⟨before, after, hrows, -⟩ := List.lookup_eq_some_iff.1 h
  exact hall (name, row) (hrows ▸ List.mem_append_right before List.mem_cons_self)

/-- An operand with no payload after it. -/
theorem readArguments_character (t : Tok) :
    readArguments .character [t] = (readCharArg t).map fun c => (c, .empty) := by
  cases h : readCharArg t <;> simp [readArguments, readPayload, h]

theorem readArguments_byte (t : Tok) :
    readArguments .byte [t] = (readByteArg t).map fun c => (c, .empty) := by
  cases h : readByteArg t <;> simp [readArguments, readPayload, h]

section

variable {name : List Char} {op : BitVec 4} {uc : Bool}

/-- A mnemonic that takes no operand. -/
theorem assembleLine_mnemonic (h : mnemonics.lookup name = some (op, uc, .none)) :
    assembleLine (['C', 'M', 'D', ' '] ++ name) = some [.command (commandWord op uc 0#21) .empty] := by
  obtain ⟨hne, hname⟩ := isWordText_of_lookup h
  rw [assembleLine_cmd (lexFrom_idle_word hne hname), readCommand, h]
  rfl

/-- A mnemonic and an operand that is a word and is read as `x`. -/
theorem assembleLine_mnemonic_operand {kind : ArgKind} {arg : List Char} {x : Char21}
    (h : mnemonics.lookup name = some (op, uc, kind)) (hne : arg ≠ []) (harg : isWordText arg = true)
    (hread : readArguments kind [.word arg] = some (x, .empty)) :
    assembleLine (['C', 'M', 'D', ' '] ++ (name ++ ' ' :: arg)) =
      some [.command (commandWord op uc x) .empty] := by
  obtain ⟨hnname, hname⟩ := isWordText_of_lookup h
  have htoks : lexFrom .idle (name ++ ' ' :: arg) = some [.word name, .word arg] := by
    rw [lexFrom_idle_word_space hnname hname, lexFrom_idle_word hne harg, Option.map_some]
  rw [assembleLine_cmd htoks, readCommand, h]
  simp only [hread]

theorem assembleLine_character (h : mnemonics.lookup name = some (op, uc, .character)) (c : Char21) :
    assembleLine (['C', 'M', 'D', ' '] ++ (name ++ ' ' :: printChar c)) =
      some [.command (commandWord op uc c) .empty] :=
  assembleLine_mnemonic_operand h (List.cons_ne_nil _ _) (isWordText_printChar c)
    (by rw [readArguments_character, readCharArg_printChar, Option.map_some])

theorem assembleLine_byte (h : mnemonics.lookup name = some (op, uc, .byte)) (b : Byte) :
    assembleLine (['C', 'M', 'D', ' '] ++ (name ++ ' ' :: printByte b)) =
      some [.command (commandWord op uc (b.setWidth 21)) .empty] :=
  assembleLine_mnemonic_operand h (List.cons_ne_nil _ _) (isWordText_printByte b)
    (by rw [readArguments_byte, readByteArg_printByte, Option.map_some])

end

/-- The line of an instruction assembles to its word. -/
theorem assembleLine_printInstr (i : Instr) :
    assembleLine (['C', 'M', 'D', ' '] ++ printInstr i) = some [.command (encode i) .empty] := by
  cases i with
  | lkc c => exact assembleLine_character (name := ['L', 'K', 'C']) rfl c
  | lkb b => exact assembleLine_byte (name := ['L', 'K', 'B']) rfl b
  | lke x => exact assembleLine_byte (name := ['L', 'K', 'E']) rfl x
  | enc | encC | dec | decC | elen | compat | cfgd | cfgs => exact assembleLine_mnemonic rfl

theorem printLine_of_legal {w : Word} {i : Instr} (h : decode w = .legal i) :
    printLine w = ['C', 'M', 'D', ' '] ++ printInstr i := by
  rw [printLine, printWord, h]

/-- Settles O15: the line is the one of the instruction, whose word is the word. -/
theorem printedLegalWordsAssembleBack : Obligations.PrintedLegalWordsAssembleBack := by
  intro w i h
  obtain ⟨hw, -⟩ := encode_of_decode h
  rw [printLine_of_legal h, assembleLine_printInstr, hw]

end Sys2Proof.Machine
end

section
/-! SUPPORT. Runs of transactions (spec/60_exceptions.md R251, spec/70_reset_and_hazards.md R280, R282): what an issued
transaction leaves, the refusal mark, the registers a host writes, and the statements about runs. -/

namespace Sys2Proof.Machine

/-! ### One transaction issued -/

section

variable {s t : State} {x : Transaction} {r : Refusal}

theorem issue_of_next (h : s.port.refusal = none) (hx : perform x s = .next t) : s.issue x = t := by
  simp only [State.issue, h, hx]

theorem issue_of_refused (h : s.port.refusal = none) (hx : perform x s = .refused r) :
    s.issue x = s.mark r := by
  simp only [State.issue, h, hx]

theorem issue_of_marked (h : s.port.refusal = some r) (x : Transaction) : s.issue x = s := by
  simp only [State.issue, h]

theorem hostRun_cons (s : State) (x : Transaction) (ts : List Transaction) :
    s.hostRun (x :: ts) = (s.issue x).hostRun ts := rfl

theorem hostRun_concat (s : State) (ts : List Transaction) (x : Transaction) :
    s.hostRun (ts ++ [x]) = (s.hostRun ts).issue x := by
  simp [State.hostRun]

theorem hostRun_of_marked (h : s.port.refusal = some r) (ts : List Transaction) :
    s.hostRun ts = s := by
  induction ts with
  | nil => rfl
  | cons x rest ih => rw [hostRun_cons, issue_of_marked h, ih]

/-- A legal command that answers leaves its response in the port. -/
theorem issue_command {w : Word} {p : Payload} {i : Instr} {u : State} (h : s.port.refusal = none)
    (hd : decode w = .legal i) (hu : exec i (s.withInput p) = .next u) :
    s.issue (.command w p) = u.respond u.commandResponse :=
  issue_of_next h (by rw [perform, performCommand_of_legal hd, hu, respondCommand])

theorem issue_writeReg {i : Nat} {v : Word} (hw : s.writeReg i v = .ok t)
    (h : s.port.refusal = none) : s.issue (.writeReg i v) = t.respond .nothing :=
  issue_of_next h (by rw [perform, hw])

/-- A register write reads no port. -/
theorem writeReg_respond {i : Nat} {v : Word} (hw : s.writeReg i v = .ok t) (a : Response) :
    (s.respond a).writeReg i v = .ok (t.respond a) := by
  obtain ⟨rfl, rfl⟩ | ⟨rfl, hv, rfl⟩ | ⟨rfl, rfl⟩ | ⟨hlo, hhi, rfl⟩ := writeReg_ok hw
  · rfl
  · rw [State.writeReg, if_pos hv]
    rfl
  · rfl
  · exact writeReg_ignored _ v hlo hhi

/-- A write after another transaction leaves its own response alone. -/
theorem issue_writeReg_respond {i : Nat} {v : Word} (hw : s.writeReg i v = .ok t)
    (h : s.port.refusal = none) (a : Response) :
    (s.respond a).issue (.writeReg i v) = t.respond .nothing :=
  issue_of_next h (by rw [perform, writeReg_respond hw a]; rfl)

end

/-! ### The machine's run -/

theorem core_run_of_next {s t : State} (h : step s = .next t) (k : Nat) :
    core.run (k + 1) s = core.run k t := by
  have hcore : core.step s = .next t := h
  simp only [Host.Core.run, hcore]

theorem core_run_of_refused {s : State} {r : Refusal} (h : step s = .refused r) (k : Nat) :
    core.run (k + 1) s = .refused r := by
  have hcore : core.step s = .refused r := h
  simp only [Host.Core.run, hcore]

/-- The verdict of a run of the host: its state, or the mark it bears. -/
def State.verdict (s : State) : Host.Outcome State Fault Refusal :=
  match s.port.refusal with
  | none => .next s
  | some r => .refused r

theorem verdict_of_unmarked {s : State} (h : s.port.refusal = none) : s.verdict = .next s := by
  rw [State.verdict, h]

theorem verdict_of_marked {s : State} {r : Refusal} (h : s.port.refusal = some r) :
    s.verdict = .refused r := by
  rw [State.verdict, h]

/-- From an unmarked idle state the machine steps through a list as the host issues it. -/
theorem core_run_withPending {s : State} {ts : List Transaction} (h : s.port.refusal = none)
    (hp : s.port.pending = []) :
    core.run ts.length (s.withPending ts) = (s.hostRun ts).verdict := by
  induction ts generalizing s with
  | nil =>
    have hidle : s.withPending [] = s := by rw [State.withPending, ← hp]
    rw [hidle]
    exact (verdict_of_unmarked h).symm
  | cons x rest ih =>
    have hstep : step (s.withPending (x :: rest)) = perform x (s.withPending rest) :=
      step_of_pending (s := s.withPending (x :: rest)) h rfl
    rw [perform_withPending] at hstep
    rw [hostRun_cons, List.length_cons]
    cases hx : perform x s with
    | next t =>
      obtain ⟨hpending, hrefusal, -⟩ := perform_port hx
      rw [hx] at hstep
      rw [core_run_of_next hstep, issue_of_next h hx, ih (hrefusal.trans h) (hpending.trans hp)]
    | fault f => cases f
    | refused r =>
      rw [hx] at hstep
      rw [core_run_of_refused hstep, issue_of_refused h hx, hostRun_of_marked rfl]
      exact (verdict_of_marked rfl).symm

/-! ### The registers a host writes (R280) -/

/-- What `registerCfg` reads from registers that hold a configuration's fields. -/
theorem registerCfg_of_fields {s : State} (h : s.OfHardware) {strict validate : Bool} {repl : Char21}
    {max : Word} (hcfg : s.cfg = (BitVec.ofBool validate ++ BitVec.ofBool strict).setWidth 32)
    (hrepl : s.repl = repl.setWidth 32) (hmaxlen : s.maxlen = max) :
    s.registerCfg = { strict := strict, repl := repl, max := max.toNat, validate := validate } := by
  have hstrict : ((BitVec.ofBool validate ++ BitVec.ofBool strict).setWidth 32).getLsbD 0 =
      strict := by
    cases validate <;> cases strict <;> decide
  have hvalidate : ((BitVec.ofBool validate ++ BitVec.ofBool strict).setWidth 32).getLsbD 1 =
      validate := by
    cases validate <;> cases strict <;> decide
  have hchar : (repl.setWidth 32).extractLsb' 0 21 = repl :=
    extractLsb'_low_setWidth (n := 21) (m := 11) repl
  rw [State.registerCfg, State.strict, State.validate, State.replChar, h.maxLength, hcfg, hrepl,
    hmaxlen, hstrict, hvalidate, hchar]

/-- Writing the three registers leaves what was written: each value fits its register's fields. -/
theorem hostRun_writes {s : State} (h : s.OfHardware) (hr : s.port.refusal = none) (flags : BitVec 2)
    {repl : Char21} (hscalar : isScalar repl = true) (max : Word) :
    s.hostRun [.writeReg 0 (flags.setWidth 32), .writeReg 1 (repl.setWidth 32), .writeReg 2 max] =
      (s.withRegisters (flags.setWidth 32) (repl.setWidth 32) max).respond .nothing := by
  have hflags : (flags.setWidth 32).extractLsb' 0 2 = flags :=
    extractLsb'_low_setWidth (n := 2) (m := 30) flags
  have hchar : (repl.setWidth 32).extractLsb' 0 21 = repl :=
    extractLsb'_low_setWidth (n := 21) (m := 11) repl
  have hcfg : s.writeReg 0 (flags.setWidth 32) =
      .ok (s.withRegisters (flags.setWidth 32) s.repl s.maxlen) := by
    rw [State.writeReg, hflags]
    rfl
  have hrepl : (s.withRegisters (flags.setWidth 32) s.repl s.maxlen).writeReg 1 (repl.setWidth 32) =
      .ok (s.withRegisters (flags.setWidth 32) (repl.setWidth 32) s.maxlen) := by
    rw [State.writeReg, hchar, if_pos hscalar]
    rfl
  have hmaxlen : (s.withRegisters (flags.setWidth 32) (repl.setWidth 32) s.maxlen).writeReg 2 max =
      .ok (s.withRegisters (flags.setWidth 32) (repl.setWidth 32) max) := by
    have hwritten := h.of_params_eq (t := s.withRegisters (flags.setWidth 32) (repl.setWidth 32)
      s.maxlen) rfl
    exact hwritten.writeReg_maxlen max
  rw [hostRun_cons, issue_writeReg hcfg hr, hostRun_cons, issue_writeReg_respond hrepl hr,
    hostRun_cons, issue_writeReg_respond hmaxlen hr]
  rfl

/-! ### A configured command with its response -/

/-- Every error of an encoding is reported by R244's table. -/
theorem State.report_encodeText {P : Params} {T : Tables} {text : List Char21} {cfg : CodecCfg}
    {e : CodecError} (h : encodeText P T text cfg = .err e) (s : State) :
    s.report e = s.errorResponse e :=
  s.report_eq_errorResponse e fun _ _ he => encodeText_unsupported T P (he ▸ h)

/-- A state with its own response in the port: what `COMMAND` leaves (R223 step 6). -/
def State.responded (s : State) : State := s.respond s.commandResponse

/-- What stood in the port before is gone once a command has responded. -/
theorem responded_answerBytes (s : State) (p : Payload) (r : Response) (a : Result (List Byte)) :
    (((s.respond r).withInput p).answerBytes a).responded = (s.answerBytes a).responded := by
  cases a <;> rfl

theorem responded_answerText (s : State) (p : Payload) (r : Response) (a : Result (List Char21)) :
    (((s.respond r).withInput p).answerText a).responded = (s.answerText a).responded := by
  cases a <;> rfl

section

variable {s : State} (h : s.OfHardware) (hr : s.port.refusal = none) (r : Response)
include h hr

/-- `ENC.C` after another transaction: the encoding under the registers, with its response. -/
theorem issue_encC {text : List Char21} (hlen : text.length ≤ s.params.inCap)
    (hscalar : ∀ c ∈ text, isScalar c = true) :
    (s.respond r).issue (.command 0x11#32 (.ofText text)) =
      (s.answerBytes (encodeText hw s.tables text s.registerCfg)).responded := by
  have hexec := exec_encC (s := (s.respond r).withInput (.ofText text)) h ⟨rfl, hlen, hscalar⟩
  rw [issue_command (s := s.respond r) hr (by decide) hexec]
  exact responded_answerBytes s _ r _

/-- `DEC.C` after another transaction: the decoding under the registers, with its response. -/
theorem issue_decC {bytes : List Byte} (hlen : bytes.length ≤ s.params.inCap) :
    (s.respond r).issue (.command 0x12#32 (.ofBytes bytes)) =
      (s.answerText (decodeBytes hw s.tables bytes s.registerCfg)).responded := by
  have hexec := exec_decC (s := (s.respond r).withInput (.ofBytes bytes)) h ⟨rfl, hlen⟩
  rw [issue_command (s := s.respond r) hr (by decide) hexec]
  exact responded_answerText s _ r _

end

/-! ### The statements -/

/-- Settles O51: a refused transaction adds the mark, and a marked state is left as it is. -/
theorem refusalMarkPersists : Obligations.RefusalMarkPersists :=
  fun _ ts => ⟨fun _ _ => issue_of_refused, fun _ h => ⟨step_of_marked h, hostRun_of_marked h ts⟩⟩

/-- Settles O59: the three writes leave the registers as written, and the command that follows takes its
configuration from them. -/
theorem writesAreSeenByTheNextCommand : Obligations.WritesAreSeenByTheNextCommand := by
  intro s strict validate repl max h hrepl hr cfg writes written responded
  have hrun : s.hostRun writes = written.respond .nothing := hostRun_writes h hr _ hrepl max
  have hwritten : written.OfHardware := h.of_params_eq rfl
  have hcfg : written.registerCfg = cfg := registerCfg_of_fields hwritten rfl rfl rfl
  refine ⟨(congrArg State.registerCfg hrun).trans hcfg, fun text hlen hscalar => ?_,
    fun bytes hlen => ?_⟩
  · rw [hostRun_concat, hrun, issue_encC hwritten hr .nothing hlen hscalar, hcfg]
    cases he : encodeText hw s.tables text cfg with
    | ok out => rw [hwritten.answerBytes_ok]; rfl
    | err e => rw [State.answerBytes, written.report_encodeText he]; rfl
  · rw [hostRun_concat, hrun, issue_decC hwritten hr .nothing hlen, hcfg]
    cases hd : decodeBytes hw s.tables bytes cfg with
    | ok text => rw [hwritten.answerText_ok]; rfl
    | err e => rw [State.answerText, written.report_decodeBytes hd]; rfl

/-- Settles O60: the machine's run gives the host's run, or the mark it bears. -/
theorem hostRunIsTheMachineRun : Obligations.HostRunIsTheMachineRun :=
  fun _ _ h hp => core_run_withPending h hp

end Sys2Proof.Machine
end
